-- ==== Sys2Proof/Word.lean ====
section
/-! DEFINITION. The words of the block: bits, bytes, bit vectors and byte buffers (00_scope.md R11, R12). -/

namespace Sys2Proof

/-- One byte, an unsigned 8-bit value (R12). -/
abbrev Byte := BitVec 8

/-- `Bytes(m)`: a byte buffer, byte 0 first; `m` is its length (R12). -/
abbrev Bytes := List Byte

/-- `BV(n)`: a bit vector, element 0 first; `n` is its length (R11). -/
abbrev Bits := List Bool

end Sys2Proof
end

