-- ==== Sys2Proof/Config.lean ====
section
/-! DEFINITION. What the spec fixes for every block, and what it leaves to the implementation. -/

namespace Sys2Proof.Config

/-- The default of `s` (00_scope.md R8: "Its default is 1"). -/
def defaultBlockSize : Nat := 1

/-- `S_MAX`, the upper bound of `s` that the spec leaves open (00_scope.md R9, 92_eei_decisions.md D2).
No operation of the model reads it; only `Sys2Proof.Safety.Realisable` does. -/
opaque sMax : Nat

end Sys2Proof.Config
end

