-- ==== Sys2Proof/Machine/Layout.lean ====
section
/-! DEFINITION. The layout: the sizes, the position roles and the index sets (10_state.md R20 to R31). -/

namespace Sys2Proof.Machine

/-- The sizes of a layout, under the spec's names (R20): the block size `s`, data_bits `d`, parity_bits `k`,
total_bits `T` and output_bytes `OB`. The position roles and index sets are functions of them (R25 to R29). -/
structure Layout where
  s : Nat
  d : Nat
  k : Nat
  T : Nat
  OB : Nat
  deriving DecidableEq, Repr

/-- The loop of R22, from `k` on: the first number that satisfies the condition. The bound `fuel` is for
termination only (`parityBits` gives it enough). -/
def parityBitsFrom (d : Nat) : Nat → Nat → Nat
  | 0, k => k
  | fuel + 1, k => if 2 ^ k < d + k + 1 then parityBitsFrom d fuel (k + 1) else k

/-- `k`, the smallest natural with `2^k >= d + k + 1` (R22). -/
def parityBits (d : Nat) : Nat := parityBitsFrom d (d + 1) 0

/-- The layout of block size `s` (R21 to R24), the value that R30 returns. -/
def layoutOf (s : Nat) : Layout :=
  let d := 8 * s
  let k := parityBits d
  let T := d + k + 1
  { s := s, d := d, k := k, T := T, OB := (T + 7) / 8 }

/-- The layout is one that LAYOUT returns for its own block size (R20, R30). -/
def Layout.wf (L : Layout) : Bool := decide (1 ≤ L.s) && decide (L = layoutOf L.s)

/-- `pow2(p)`: `p > 0` and `p & (p-1) = 0` (00_scope.md R12). -/
def isPow2 (p : Nat) : Bool := decide (0 < p) && decide (p &&& (p - 1) = 0)

/-- The role GLOBAL (R25). -/
def isGlobal (p : Nat) : Bool := decide (p = 0)

/-- The role GROUP (R25). -/
def isGroup (p : Nat) : Bool := isPow2 p

/-- The role DATA (R25). -/
def isData (p : Nat) : Bool := decide (0 < p) && !isPow2 p

/-- `DPOS`: the DATA positions in ascending order (R27). -/
def Layout.dpos (L : Layout) : List Nat := (List.range L.T).filter isData

/-- The GROUP positions in ascending order (R26). -/
def Layout.gpos (L : Layout) : List Nat := (List.range L.T).filter isGroup

/-- `COVER(i)`, in ascending order (R28, for a group index `i < k`). DESIGN CHOICE: for `i ≥ k`, which is no group index, it
is the same set of positions, so no position of a layout that LAYOUT returns (log entry 21). Unsafe. -/
def Layout.cover (L : Layout) (i : Nat) : List Nat :=
  (List.range L.T).filter fun p => decide (1 ≤ p) && !isPow2 p && p.testBit i

/-- `DIDX(p)`: the number of the data bit at the DATA position `p` (R27). -/
def didx (p : Nat) : Nat := p - Nat.log2 p - 2

end Sys2Proof.Machine
end

