-- ==== Sys2Proof/Machine/State.lean ====
section
/-! DEFINITION. The state: the layout, which is all the block holds (10_state.md R20, R33), and what the host that
sequences the operations holds (30_encoding.md R74): the program variables, the lines still to run, and the error
results returned so far. -/

namespace Sys2Proof.Machine

/-- The status of a DecodeResult (10_state.md R34). The code 11 of R67 is left out, as R68 allows. -/
inductive DecodeStatus where
  | noError
  | singleErrorCorrected
  | doubleErrorDetected
  deriving DecidableEq, Repr

/-- What a program variable can hold (R74: "byte buffers, bit vectors, naturals, bits, statuses"). -/
inductive Value where
  | bytes (buf : Bytes)
  | vec (v : Bits)
  | nat (n : Nat)
  | bit (b : Bool)
  | status (st : DecodeStatus)
  deriving DecidableEq, Repr

/-- The four error kinds with the information each records (60_exceptions.md R220). -/
inductive OpError where
  | invalidBlockSize (s : Nat)
  | invalidLength (given required : Nat)
  | indexOutOfRange (index length : Nat)
  | lengthMismatch (left right : Nat)
  deriving DecidableEq, Repr

/-- Where the machine stops with a fault: the programming-error class of 60_exceptions.md R226 and R228. -/
inductive Fault where
  /-- Raised by BV_GET and BV_SET for an index at or past the length (R224). The spec calls it a fault. Safe. -/
  | indexOutOfRange (index length : Nat)
  /-- Raised by BV_XOR for operands of unequal length (R225). The spec calls it a fault. Safe. -/
  | lengthMismatch (left right : Nat)
  deriving DecidableEq, Repr

/-- Where the machine refuses. -/
inductive Refusal where
  /-- Raised by an arm of `exec` whose instruction has no meaning yet (there is none). Safe. -/
  | notModelled (mnemonic : String)
  /-- Raised by LAYOUT with `s < 1`: the configuration is refused (R222, R228). Safe. -/
  | invalidBlockSize (s : Nat)
  /-- Raised by BV_FROM_BYTES for a `bit_order` other than little, numbered (20_memory.md R43, R228). Safe. -/
  | bitOrderNotLittle (n : Nat)
  /-- Raised by BV_SET for a value that is neither 0 nor 1 (40_bitvector.md R104, R228). Safe. -/
  | notABit (n : Nat)
  /-- Raised by `step` for a byte that is no operation code (30_encoding.md R70, R228). Safe. -/
  | reservedOperation (b : Byte)
  /-- Raised by `step` where the operands' bytes follow no operand form (log entry 1). Safe. -/
  | malformedOperands
  /-- Raised by `step` when no line is left (log entry 7). Safe. -/
  | programEnded
  /-- Raised by an operand that names a program variable with no value (log entry 4). Safe. -/
  | noValue (x : Nat)
  /-- Raised by an operand that names a program variable holding a value of another kind (log entry 5). Safe. -/
  | otherKind (x : Nat)
  /-- Raised by SYNDROME for a vector whose length is not `T` (42_syndrome.md R160 types both operands `BV(T)`;
  log entry 6). Safe. -/
  | notCodewordLength (given required : Nat)
  deriving DecidableEq, Repr

/-- The machine's state. -/
structure State where
  /-- The layout that LAYOUT constructed (10_state.md R20, R30). -/
  layout : Layout
  /-- The program variables that have a value, by rising name (30_encoding.md R74). -/
  vars : List (Nat × Value)
  /-- The encoded lines that still stand before the host, in order (R74). -/
  program : Bytes
  /-- The number of the next line (95_test_vectors.md section 3, column `#`). -/
  line : Nat
  /-- The error results returned so far, each with its line, oldest first (60_exceptions.md R228). -/
  errors : List (Nat × OpError)
  deriving DecidableEq, Repr

/-- What an operation answers. -/
abbrev Result := Host.Outcome State Fault Refusal

/-- The state after reset: the layout of the default block size (70_reset_and_hazards.md R250, 00_scope.md R8), an empty
set of program variables (95_test_vectors.md section 3), and no program (log entry 2). -/
def State.reset : State :=
  { layout := layoutOf Config.defaultBlockSize, vars := [], program := [], line := 1, errors := [] }

end Sys2Proof.Machine
end

