-- ==== Sys2Proof/Machine/BitVector.lean ====
section
/-! DEFINITION. The BitVector operations as functions (40_bitvector.md R101 to R109), and the byte and bit orders
(20_memory.md R41, R42). -/

namespace Sys2Proof.Machine

/-- `uint(v)`, the unsigned integer with element `i` of weight `2^i` (00_scope.md R12). -/
def uint (v : Bits) : Nat := v.foldr (fun b n => b.toNat + 2 * n) 0

/-- Element `i` of `v`; only ever asked below the length. -/
def elem (v : Bits) (i : Nat) : Bool := v.getD i false

/-- BV_OF_SIZE (R101). -/
def bvOfSize (n : Nat) : Bits := List.replicate n false

/-- BV_FROM_BYTES in the little order (R102, R41). -/
def bvFromBytes (buf : Bytes) : Bits :=
  (List.range (8 * buf.length)).map fun i => (buf.getD (i / 8) 0).getLsbD (i % 8)

/-- BV_GET (R103). -/
def bvGet (v : Bits) (i : Nat) : Except OpError Bool :=
  if i ≥ v.length then .error (.indexOutOfRange i v.length) else .ok (elem v i)

/-- BV_SET (R104): the vector after the write. -/
def bvSet (v : Bits) (i : Nat) (b : Bool) : Except OpError Bits :=
  if i ≥ v.length then .error (.indexOutOfRange i v.length) else .ok (v.set i b)

/-- BV_SELECT_WHERE (R105). -/
def bvSelectWhere (v : Bits) (pred : Nat → Bool) : Bits :=
  ((List.range v.length).filter pred).map (elem v)

/-- BV_PAD_TO (R106). -/
def bvPadTo (v : Bits) (n : Nat) : Except OpError Bits :=
  if n < v.length then .error (.invalidLength n v.length)
  else .ok (v ++ List.replicate (n - v.length) false)

/-- BV_XOR (R107). -/
def bvXor (a b : Bits) : Except OpError Bits :=
  if a.length ≠ b.length then .error (.lengthMismatch a.length b.length)
  else .ok (List.zipWith xor a b)

/-- BV_PARITY (R108). -/
def bvParity (v : Bits) : Bool := v.foldl xor false

/-- BV_TO_BYTES (R109, R42): byte `j` is the integer of elements `8*j` to `8*j + 7`, absent ones 0. -/
def bvToBytes (v : Bits) : Bytes :=
  (List.range ((v.length + 7) / 8)).map fun j => BitVec.ofNat 8 (uint ((v.drop (8 * j)).take 8))

end Sys2Proof.Machine
end

