-- ==== Sys2Proof/Machine/Ops.lean ====
section
/-! DEFINITION. The named operations over the program variables, and what an error does (60_exceptions.md R221, R228). -/

namespace Sys2Proof.Machine

/-- The value of the name `x` in a store. -/
def lookupVar : List (Nat × Value) → Nat → Option Value
  | [], _ => none
  | (y, v) :: rest, x => if x = y then some v else lookupVar rest x

/-- The store with `x` set to `v`, names kept rising. -/
def insertVar : List (Nat × Value) → Nat → Value → List (Nat × Value)
  | [], x, v => [(x, v)]
  | (y, u) :: rest, x, v =>
    if x < y then (x, v) :: (y, u) :: rest
    else if x = y then (x, v) :: rest
    else (y, u) :: insertVar rest x v

/-- The canonical form of a store: names strictly rising, so that equal stores are equal lists. -/
def varsWf (vars : List (Nat × Value)) : Bool := decide ((vars.map Prod.fst).Pairwise (· < ·))

/-- The value of a program variable; `none` where it has none. -/
def State.readVar (s : State) (x : Nat) : Option Value := lookupVar s.vars x

/-- Give a program variable a value. DESIGN CHOICE: it takes the place of whatever value the name had, of any kind
(log entry 22). Unsafe. -/
def State.writeVar (s : State) (x : Nat) (v : Value) : State := { s with vars := insertVar s.vars x v }

/-- Give program variables their values, in order. -/
def State.writeVars (s : State) (ws : List (Nat × Value)) : State :=
  ws.foldl (fun s w => s.writeVar w.1 w.2) s

/-- Record an error result at the present line (R228: "a result `Error(InvalidLength)` with no data"). -/
def State.recordError (s : State) (e : OpError) : State := { s with errors := s.errors ++ [(s.line, e)] }

/-- What the model does with an error, by its kind (R228). The operation has had no effect (R221). -/
def raise (e : OpError) (s : State) : Result :=
  match e with
  | .invalidBlockSize n => .refused (.invalidBlockSize n)
  | .invalidLength given required => .next (s.recordError (.invalidLength given required))
  | .indexOutOfRange i n => .fault (.indexOutOfRange i n)
  | .lengthMismatch n m => .fault (.lengthMismatch n m)

/-- End an operation: its results go to their program variables, or its error is raised. DESIGN CHOICE: a result's name may
be an operand's name, of any operation; the operands have been read, and the result takes the variable's place (log
entry 22). Unsafe. -/
def deliver (r : Except OpError (List (Nat × Value))) (s : State) : Result :=
  match r with
  | .ok ws => .next (s.writeVars ws)
  | .error e => raise e s

/-- Go on with an operand's value, or refuse. -/
def withOperand {α : Type} (r : Except Refusal α) (k : α → Result) : Result :=
  match r with
  | .ok a => k a
  | .error e => .refused e

end Sys2Proof.Machine
end

