-- ==== Sys2Proof/Syntax.lean ====
section
/-! DEFINITION. The operations of 30_encoding.md R69 as one inductive, in the forms of the program notation R74.
The spec's program variables have words as names; the model numbers them, and a name is a `Nat`. -/

namespace Sys2Proof

/-- A byte-buffer operand: the all-zero buffer of the operand's own width (written `0^s` in 41_encoder.md R148),
a literal buffer, or a program variable (30_encoding.md R74). -/
inductive BytesOperand where
  | zeros
  | lit (buf : Bytes)
  | var (x : Nat)
  deriving DecidableEq, Repr

/-- A bit-vector operand: the all-zero codeword vector, a literal vector, or a program variable (R74). -/
inductive VecOperand where
  | zeros
  | lit (v : Bits)
  | var (x : Nat)
  deriving DecidableEq, Repr

/-- A natural operand: a literal or a program variable (R74). -/
inductive NatOperand where
  | lit (n : Nat)
  | var (x : Nat)
  deriving DecidableEq, Repr

/-- The value that BV_SET writes: a literal, kept as a natural because a value other than 0 or 1 can be written and
is then refused (40_bitvector.md R104), or a program variable. -/
inductive BitOperand where
  | lit (n : Nat)
  | var (x : Nat)
  deriving DecidableEq, Repr

/-- The target of BV_SET: `v <- v, i, b` names one variable twice (R74), which is written in place (R104);
or the vector that this variable is to start from is given as a literal. -/
inductive TargetOperand where
  | zeros
  | lit (v : Bits)
  | inPlace
  deriving DecidableEq, Repr

/-- The block size of LAYOUT. R74 writes `LAYOUT s = <n>`, the form `lit`. DESIGN CHOICE: left out, it is the default of
00_scope.md R8 (log entry 11); and it may be read from a program variable (log entry 20). Safe: each is a LAYOUT line that
names the same size. -/
inductive SizeOperand where
  | default
  | lit (n : Nat)
  | var (x : Nat)
  deriving DecidableEq, Repr

/-- The `bit_order` argument of BV_FROM_BYTES. Only `little` has a meaning (20_memory.md R43); `other` stands for
every other value, numbered. -/
inductive BitOrder where
  | little
  | other (n : Nat)
  deriving DecidableEq, Repr

/-- The predicate of BV_SELECT_WHERE (30_encoding.md R74: `DATA`, `GROUP`, `GLOBAL`, or a named predicate;
92_eei_decisions.md D24: any decidable predicate on naturals). `cover` is 10_state.md R28,
taken for every `i` (log entry 21); `isData` and `isGroup` are
the role predicates of R25 without the bound `p < T`; `bitSet i` is `bitof(p, i) = 1` (so `bitSet 0` is "p odd");
`listed` and `notListed` are the finite and the cofinite sets of positions, and since the predicate is asked only
of `0 .. n-1` (R105) every predicate agrees with a listed one on any one vector. -/
inductive Pred where
  | data
  | group
  | global
  | cover (i : Nat)
  | isData
  | isGroup
  | bitSet (i : Nat)
  | listed (ps : List Nat)
  | notListed (ps : List Nat)
  deriving DecidableEq, Repr

/-- The operations, one constructor per row of spec/opcode_table.json, destinations first (R69, R74). -/
inductive Instr where
  /-- `ENCODE c <- m` (41_encoder.md R140). -/
  | encode (c : Nat) (m : BytesOperand)
  /-- `DECODE (m, st) <- c` (43_decoder.md R180). -/
  | decode (m st : Nat) (c : BytesOperand)
  /-- `SYNDROME (syn, g) <- r, f` (42_syndrome.md R160). -/
  | syndrome (syn g : Nat) (r f : VecOperand)
  /-- `BV_XOR x <- a, b` (40_bitvector.md R107). -/
  | bvXor (x : Nat) (a b : VecOperand)
  /-- `BV_PARITY b <- v` (R108). -/
  | bvParity (b : Nat) (v : VecOperand)
  /-- `BV_SELECT_WHERE w <- v, PRED` (R105). -/
  | bvSelectWhere (w : Nat) (v : VecOperand) (pred : Pred)
  /-- `BV_PAD_TO w <- v, n` (R106). -/
  | bvPadTo (w : Nat) (v : VecOperand) (n : NatOperand)
  /-- `BV_FROM_BYTES v <- buf, order` (R102). -/
  | bvFromBytes (v : Nat) (buf : BytesOperand) (order : BitOrder)
  /-- `BV_TO_BYTES buf <- v` (R109). -/
  | bvToBytes (buf : Nat) (v : VecOperand)
  /-- `BV_GET b <- v, i` (R103). -/
  | bvGet (b : Nat) (v : VecOperand) (i : NatOperand)
  /-- `BV_SET v <- v, i, b` (R104). -/
  | bvSet (v : Nat) (old : TargetOperand) (i : NatOperand) (b : BitOperand)
  /-- `BV_OF_SIZE v <- n` (R101). -/
  | bvOfSize (v : Nat) (n : NatOperand)
  /-- `LAYOUT s = n` (10_state.md R30). -/
  | layout (s : SizeOperand)
  deriving DecidableEq, Repr

/-- The program variables that an operation writes when it returns a result (R74, left of the arrow). -/
def Instr.dests : Instr → List Nat
  | .encode c _ => [c]
  | .decode m st _ => [m, st]
  | .syndrome syn g _ _ => [syn, g]
  | .bvXor x _ _ => [x]
  | .bvParity b _ => [b]
  | .bvSelectWhere w _ _ => [w]
  | .bvPadTo w _ _ => [w]
  | .bvFromBytes v _ _ => [v]
  | .bvToBytes buf _ => [buf]
  | .bvGet b _ _ => [b]
  | .bvSet v _ _ _ => [v]
  | .bvOfSize v _ => [v]
  | .layout _ => []

/-- The variables an operand reads. -/
def BytesOperand.vars : BytesOperand → List Nat
  | .zeros => []
  | .lit _ => []
  | .var x => [x]

/-- The variables an operand reads. -/
def VecOperand.vars : VecOperand → List Nat
  | .zeros => []
  | .lit _ => []
  | .var x => [x]

/-- The variables an operand reads. -/
def NatOperand.vars : NatOperand → List Nat
  | .lit _ => []
  | .var x => [x]

/-- The variables an operand reads. -/
def BitOperand.vars : BitOperand → List Nat
  | .lit _ => []
  | .var x => [x]

/-- The variables an operand reads. -/
def SizeOperand.vars : SizeOperand → List Nat
  | .default => []
  | .lit _ => []
  | .var x => [x]

/-- The vector that BV_SET with target `v` starts from, as an operand: in place it is `v` itself. -/
def TargetOperand.toVec (v : Nat) : TargetOperand → VecOperand
  | .zeros => .zeros
  | .lit w => .lit w
  | .inPlace => .var v

/-- The program variables that an operation reads (R74, right of the arrow). -/
def Instr.sources : Instr → List Nat
  | .encode _ m => m.vars
  | .decode _ _ c => c.vars
  | .syndrome _ _ r f => r.vars ++ f.vars
  | .bvXor _ a b => a.vars ++ b.vars
  | .bvParity _ v => v.vars
  | .bvSelectWhere _ v _ => v.vars
  | .bvPadTo _ v n => v.vars ++ n.vars
  | .bvFromBytes _ buf _ => buf.vars
  | .bvToBytes _ v => v.vars
  | .bvGet _ v i => v.vars ++ i.vars
  | .bvSet v old i b => (old.toVec v).vars ++ i.vars ++ b.vars
  | .bvOfSize _ n => n.vars
  | .layout s => s.vars

end Sys2Proof
end

