-- ==== Sys2Proof/Machine/Operands.lean ====
section
/-! DEFINITION. Every operand form of the program notation (30_encoding.md R74): reading it, and the predicates. -/

namespace Sys2Proof.Machine

/-- A byte buffer, if the value is one. -/
def asBytes : Value → Option Bytes
  | .bytes buf => some buf
  | _ => none

/-- A bit vector, if the value is one. -/
def asVec : Value → Option Bits
  | .vec v => some v
  | _ => none

/-- A natural, if the value is one; a bit is the number 0 or 1 (00_scope.md R11). -/
def asNat : Value → Option Nat
  | .nat n => some n
  | .bit b => some b.toNat
  | _ => none

/-- The value of the variable `x` as the kind that `as` asks for (log entries 4 and 5). -/
def readAs {α : Type} (as : Value → Option α) (x : Nat) (s : State) : Except Refusal α :=
  match s.readVar x with
  | none => .error (.noValue x)
  | some v =>
    match as v with
    | none => .error (.otherKind x)
    | some a => .ok a

/-- A byte-buffer operand; `width` is the operand's own width, for `zeros`. -/
def readBytes (o : BytesOperand) (width : Nat) (s : State) : Except Refusal Bytes :=
  match o with
  | .zeros => .ok (List.replicate width 0)
  | .lit buf => .ok buf
  | .var x => readAs asBytes x s

/-- A bit-vector operand; `zeros` is the all-zero codeword vector, of `T` elements. -/
def readVec (o : VecOperand) (s : State) : Except Refusal Bits :=
  match o with
  | .zeros => .ok (bvOfSize s.layout.T)
  | .lit v => .ok v
  | .var x => readAs asVec x s

/-- A natural operand. -/
def readNat (o : NatOperand) (s : State) : Except Refusal Nat :=
  match o with
  | .lit n => .ok n
  | .var x => readAs asNat x s

/-- A number as a bit; any other number than 0 and 1 is refused (40_bitvector.md R104, 60_exceptions.md R228). -/
def bitOfNat (n : Nat) : Except Refusal Bool :=
  if n = 0 then .ok false else if n = 1 then .ok true else .error (.notABit n)

/-- The value that BV_SET writes. -/
def readBit (o : BitOperand) (s : State) : Except Refusal Bool :=
  match o with
  | .lit n => bitOfNat n
  | .var x =>
    match readAs asNat x s with
    | .ok n => bitOfNat n
    | .error e => .error e

/-- The block size of LAYOUT (00_scope.md R8). DESIGN CHOICE: it may be left out (log entry 11), or be a program variable
that holds a natural, or a bit as 0 or 1 (log entries 16 and 20). -/
def readSize (o : SizeOperand) (s : State) : Except Refusal Nat :=
  match o with
  | .default => .ok Config.defaultBlockSize
  | .lit n => .ok n
  | .var x => readAs asNat x s

/-- A predicate at a position: DATA, GROUP and GLOBAL are bounded by `T` (R74), COVER is 10_state.md R28, and
selects no position of a layout that LAYOUT returns where `i` is no group index (DESIGN CHOICE, log entry 21). The other names are log entry 14's. -/
def Layout.holds (L : Layout) (pred : Pred) (p : Nat) : Bool :=
  match pred with
  | .data => decide (p < L.T) && Machine.isData p
  | .group => decide (p < L.T) && Machine.isGroup p
  | .global => isGlobal p
  | .cover i => decide (p ∈ L.cover i)
  | .isData => Machine.isData p
  | .isGroup => Machine.isGroup p
  | .bitSet i => p.testBit i
  | .listed ps => decide (p ∈ ps)
  | .notListed ps => !decide (p ∈ ps)

end Sys2Proof.Machine
end

