-- ==== Sys2Proof/Machine/ExecBitVector.lean ====
section
/-! DEFINITION. The meanings of the BitVector operations (40_bitvector.md R101 to R109). -/

namespace Sys2Proof.Machine

/-- BV_OF_SIZE (R101). -/
def execBvOfSize (dst : Nat) (n : NatOperand) (s : State) : Result :=
  withOperand (readNat n s) fun n =>
    deliver (.ok [(dst, .vec (bvOfSize n))]) s

/-- BV_FROM_BYTES (R102); another bit order than little is refused (20_memory.md R43). -/
def execBvFromBytes (dst : Nat) (buf : BytesOperand) (order : BitOrder) (s : State) : Result :=
  withOperand (readBytes buf s.layout.OB s) fun buf =>
    match order with
    | .other n => .refused (.bitOrderNotLittle n)
    | .little => deliver (.ok [(dst, .vec (bvFromBytes buf))]) s

/-- BV_GET (R103). -/
def execBvGet (dst : Nat) (v : VecOperand) (i : NatOperand) (s : State) : Result :=
  withOperand (readVec v s) fun v =>
    withOperand (readNat i s) fun i =>
      deliver ((bvGet v i).map fun b => [(dst, .bit b)]) s

/-- BV_SET (R104): the target variable `v` holds the vector after the write. -/
def execBvSet (v : Nat) (old : TargetOperand) (i : NatOperand) (b : BitOperand) (s : State) : Result :=
  withOperand (readVec (old.toVec v) s) fun w =>
    withOperand (readNat i s) fun i =>
      withOperand (readBit b s) fun b =>
        deliver ((bvSet w i b).map fun w => [(v, .vec w)]) s

/-- BV_SELECT_WHERE (R105). -/
def execBvSelectWhere (dst : Nat) (v : VecOperand) (pred : Pred) (s : State) : Result :=
  withOperand (readVec v s) fun v =>
    deliver (.ok [(dst, .vec (bvSelectWhere v (s.layout.holds pred)))]) s

/-- BV_PAD_TO (R106). -/
def execBvPadTo (dst : Nat) (v : VecOperand) (n : NatOperand) (s : State) : Result :=
  withOperand (readVec v s) fun v =>
    withOperand (readNat n s) fun n =>
      deliver ((bvPadTo v n).map fun w => [(dst, .vec w)]) s

/-- BV_XOR (R107). -/
def execBvXor (dst : Nat) (a b : VecOperand) (s : State) : Result :=
  withOperand (readVec a s) fun a =>
    withOperand (readVec b s) fun b =>
      deliver ((bvXor a b).map fun x => [(dst, .vec x)]) s

/-- BV_PARITY (R108). -/
def execBvParity (dst : Nat) (v : VecOperand) (s : State) : Result :=
  withOperand (readVec v s) fun v =>
    deliver (.ok [(dst, .bit (bvParity v))]) s

/-- BV_TO_BYTES (R109). -/
def execBvToBytes (dst : Nat) (v : VecOperand) (s : State) : Result :=
  withOperand (readVec v s) fun v =>
    deliver (.ok [(dst, .bytes (bvToBytes v))]) s

end Sys2Proof.Machine
end

