-- ==== Sys2Proof/Machine/Flags.lean ====
section
/-! DEFINITION. The block stores no flags and no condition codes (10_state.md R34). What it computes in their place is the
DecodeStatus that DECODE returns: its code and its decision table. -/

namespace Sys2Proof.Machine

/-- `status[1:0]` (30_encoding.md R67). -/
def DecodeStatus.code : DecodeStatus → BitVec 2
  | .noError => 0b00
  | .singleErrorCorrected => 0b01
  | .doubleErrorDetected => 0b10

/-- The code of an error kind (60_exceptions.md R220). -/
def OpError.code : OpError → Nat
  | .invalidBlockSize _ => 1
  | .invalidLength _ _ => 2
  | .indexOutOfRange _ _ => 3
  | .lengthMismatch _ _ => 4

/-- The decision table of 43_decoder.md R185, with R187 for a syndrome `n` at or past `T`. -/
def decideStatus (T n : Nat) (g : Bool) : DecodeStatus :=
  if n = 0 ∧ g = false then .noError
  else if n ≠ 0 ∧ g = true then
    if n ≥ T then .doubleErrorDetected else .singleErrorCorrected
  else .doubleErrorDetected

end Sys2Proof.Machine
end

