-- ==== Sys2Proof/Machine/Codec.lean ====
section
/-! DEFINITION. The codec as functions of the layout: LAYOUT, ENCODE, SYNDROME and DECODE (10_state.md R30, 41_encoder.md
R140, 42_syndrome.md R160, 43_decoder.md R180). -/

namespace Sys2Proof.Machine

/-- LAYOUT (R30). -/
def constructLayout (s : Nat) : Except OpError Layout :=
  if s < 1 then .error (.invalidBlockSize s) else .ok (layoutOf s)

/-- ENCODE, step 3: the data bits at the DATA positions, in ascending order (R140). -/
def placeData (L : Layout) (D w : Bits) : Bits :=
  (L.dpos.zip D).foldl (fun w pb => w.set pb.1 pb.2) w

/-- The parity of the positions of `w` that group `i` covers (R142). -/
def coverParity (L : Layout) (w : Bits) (i : Nat) : Bool := bvParity ((L.cover i).map (elem w))

/-- ENCODE, step 4: the group bits (R142). -/
def placeGroups (L : Layout) (w : Bits) : Bits :=
  (List.range L.k).foldl (fun w i => w.set (2 ^ i) (coverParity L w i)) w

/-- ENCODE, step 5: the global bit, the parity of the whole vector (R143). -/
def placeGlobal (w : Bits) : Bits := w.set 0 (bvParity w)

/-- The codeword vector of the data bits `D`: steps 2 to 5 of ENCODE (R140). -/
def codeword (L : Layout) (D : Bits) : Bits :=
  placeGlobal (placeGroups L (placeData L D (bvOfSize L.T)))

/-- ENCODE (R140, R141, R144). -/
def encodeBlock (L : Layout) (m : Bytes) : Except OpError Bytes :=
  if m.length ≠ L.s then .error (.invalidLength m.length L.s)
  else
    match bvPadTo (bvFromBytes m) L.d with
    | .error e => .error e
    | .ok D => .ok (bvToBytes (codeword L D))

/-- SYNDROME: the syndrome vector and the global mismatch (R160, R161, R163). -/
def syndromeOf (r f : Bits) : Except OpError (Bits × Bool) :=
  match bvXor (bvSelectWhere r isGroup) (bvSelectWhere f isGroup) with
  | .error e => .error e
  | .ok syn => .ok (syn, bvParity r)

/-- The codeword positions of a frame: parsed and cut to `T` elements (R181, 40_bitvector.md R113). -/
def codewordOf (L : Layout) (c : Bytes) : Bits := (bvFromBytes c).take L.T

/-- The data that a codeword vector carries (R182). -/
def dataOf (w : Bits) : Bytes := bvToBytes (bvSelectWhere w isData)

/-- DECODE, step 6 on: the outcome for the candidate data, the reference word, the syndrome `n` and the global
mismatch `g` (R185 to R188). -/
def decodeResult (L : Layout) (cand : Bytes) (f : Bits) (n : Nat) (g : Bool) : Except OpError (Bytes × DecodeStatus) :=
  match decideStatus L.T n g with
  | .noError => .ok (cand, .noError)
  | .doubleErrorDetected => .ok (cand, .doubleErrorDetected)
  | .singleErrorCorrected =>
    match bvSet f n (!elem f n) with
    | .error e => .error e
    | .ok f => .ok (dataOf f, .singleErrorCorrected)

/-- DECODE (R180 to R188). -/
def decodeFrame (L : Layout) (c : Bytes) : Except OpError (Bytes × DecodeStatus) :=
  if c.length < L.OB then .error (.invalidLength c.length L.OB)
  else
    let r := codewordOf L c
    let cand := dataOf r
    match encodeBlock L cand with
    | .error e => .error e
    | .ok fc =>
      let f := codewordOf L fc
      match syndromeOf r f with
      | .error e => .error e
      | .ok (syn, g) => decodeResult L cand f (uint syn) g

end Sys2Proof.Machine
end

