-- ==== Sys2Proof/Machine/ExecCodec.lean ====
section
/-! DEFINITION. The meanings of ENCODE, DECODE and SYNDROME. -/

namespace Sys2Proof.Machine

/-- ENCODE (41_encoder.md R140). -/
def execEncode (dst : Nat) (m : BytesOperand) (s : State) : Result :=
  withOperand (readBytes m s.layout.s s) fun m =>
    deliver ((encodeBlock s.layout m).map fun c => [(dst, .bytes c)]) s

/-- DECODE (43_decoder.md R180). -/
def execDecode (dstData dstStatus : Nat) (c : BytesOperand) (s : State) : Result :=
  withOperand (readBytes c s.layout.OB s) fun c =>
    deliver ((decodeFrame s.layout c).map fun res => [(dstData, .bytes res.1), (dstStatus, .status res.2)]) s

/-- A vector of `T` elements, the type of SYNDROME's operands (42_syndrome.md R160, 30_encoding.md R74; log entry 6). -/
def codewordLength (L : Layout) (v : Bits) : Except Refusal Bits :=
  if v.length = L.T then .ok v else .error (.notCodewordLength v.length L.T)

/-- SYNDROME (R160). -/
def execSyndrome (dstSyn dstG : Nat) (r f : VecOperand) (s : State) : Result :=
  withOperand (readVec r s) fun r =>
    withOperand (readVec f s) fun f =>
      withOperand (codewordLength s.layout r) fun r =>
        withOperand (codewordLength s.layout f) fun f =>
          deliver ((syndromeOf r f).map fun res => [(dstSyn, .vec res.1), (dstG, .bit res.2)]) s

end Sys2Proof.Machine
end

