-- ==== Sys2Proof/Machine/ExecLayout.lean ====
section
/-! DEFINITION. The meaning of LAYOUT. -/

namespace Sys2Proof.Machine

/-- LAYOUT (10_state.md R30): the constructed layout is the one that the operations after it use (log entry 3);
`s < 1` is refused (60_exceptions.md R222, R228). -/
def execLayout (size : SizeOperand) (s : State) : Result :=
  withOperand (readSize size s) fun n =>
    match constructLayout n with
    | .error e => raise e s
    | .ok L => .next { s with layout := L }

end Sys2Proof.Machine
end

