-- ==== Sys2Proof/Machine/Dispatch.lean ====
section
/-! DEFINITION. Every operation to its meaning (30_encoding.md R69). -/

namespace Sys2Proof.Machine

def exec (i : Instr) (s : State) : Host.Outcome State Fault Refusal :=
  match i with
  | .encode c m => Sys2Proof.Machine.execEncode c m s
  | .decode m st c => Sys2Proof.Machine.execDecode m st c s
  | .syndrome syn g r f => Sys2Proof.Machine.execSyndrome syn g r f s
  | .bvXor x a b => Sys2Proof.Machine.execBvXor x a b s
  | .bvParity b v => Sys2Proof.Machine.execBvParity b v s
  | .bvSelectWhere w v pred => Sys2Proof.Machine.execBvSelectWhere w v pred s
  | .bvPadTo w v n => Sys2Proof.Machine.execBvPadTo w v n s
  | .bvFromBytes v buf order => Sys2Proof.Machine.execBvFromBytes v buf order s
  | .bvToBytes buf v => Sys2Proof.Machine.execBvToBytes buf v s
  | .bvGet b v j => Sys2Proof.Machine.execBvGet b v j s
  | .bvSet v old j b => Sys2Proof.Machine.execBvSet v old j b s
  | .bvOfSize v n => Sys2Proof.Machine.execBvOfSize v n s
  | .layout size => Sys2Proof.Machine.execLayout size s

end Sys2Proof.Machine
end

