-- ==== Sys2Proof/WellFormed.lean ====
section
/-! DEFINITION. When an instruction names its operands well: the two results of DECODE and of SYNDROME go to two
different program variables (30_encoding.md R74 writes them as a pair of names). Everything else that the spec calls
illegal (R71) is an operand VALUE: the operation itself refuses it or reports it, by the name the spec gives. -/

namespace Sys2Proof

/-- The results of one operation have distinct names. -/
def Instr.wellFormed : Instr → Bool
  | .encode _ _ => true
  | .decode m st _ => decide (m ≠ st)
  | .syndrome syn g _ _ => decide (syn ≠ g)
  | .bvXor _ _ _ => true
  | .bvParity _ _ => true
  | .bvSelectWhere _ _ _ => true
  | .bvPadTo _ _ _ => true
  | .bvFromBytes _ _ _ => true
  | .bvToBytes _ _ => true
  | .bvGet _ _ _ => true
  | .bvSet _ _ _ _ => true
  | .bvOfSize _ _ => true
  | .layout _ => true

end Sys2Proof
end

