-- ==== Sys2Proof/Decode.lean ====
section
/-! DEFINITION. The decoder, total on any bytes and rejecting by name, and the encoder after it.
An instruction is one byte with the 4-bit operation code of 30_encoding.md R69 in bits 3:0 and zeros above it, then its
operands in the order of R74. The spec gives the operands no bit layout ("the sequence of its operation codes (rule R69)
with each operand value", R74): the operands' bytes are a DESIGN CHOICE, log entry 1. -/

namespace Sys2Proof

/-- Why bytes are no instruction. -/
inductive DecodeReject where
  /-- The bytes end inside the instruction. -/
  | truncated
  /-- The first byte is no operation code of R69: a reserved code of R70, or bits above the 4-bit code. -/
  | reservedOperation (b : Byte)
  /-- A natural is written with a superfluous last byte. -/
  | nonCanonicalNat
  /-- No operand form has this number. -/
  | badForm (b : Byte)
  /-- A bit of a literal vector is neither 0 nor 1. -/
  | badBit (b : Byte)
  deriving DecidableEq, Repr

/-- A parser takes bytes from the front of a program and leaves the rest. -/
abbrev Parsed (α : Type) := Except DecodeReject (α × Bytes)

/-- Run the second parser on what the first leaves. -/
def andThen {α β : Type} (r : Parsed α) (k : α → Bytes → Parsed β) : Parsed β :=
  match r with
  | .error e => .error e
  | .ok (a, rest) => k a rest

/-- A natural, seven bits a byte, least significant first; bit 7 set on every byte but the last. -/
def parseNat : Bytes → Parsed Nat
  | [] => .error .truncated
  | b :: bs =>
    if b.toNat < 128 then .ok (b.toNat, bs)
    else
      match parseNat bs with
      | .error e => .error e
      | .ok (n, rest) => if n = 0 then .error .nonCanonicalNat else .ok (b.toNat - 128 + 128 * n, rest)

/-- One byte as it stands. -/
def parseByte : Bytes → Parsed Byte
  | [] => .error .truncated
  | b :: bs => .ok (b, bs)

/-- One element of a literal vector, a byte 0 or 1. -/
def parseBit (bs : Bytes) : Parsed Bool :=
  andThen (parseByte bs) fun b rest =>
    if b = 0 then .ok (false, rest) else if b = 1 then .ok (true, rest) else .error (.badBit b)

/-- `n` items, one after the other. -/
def parseMany {α : Type} (p : Bytes → Parsed α) : Nat → Bytes → Parsed (List α)
  | 0, bs => .ok ([], bs)
  | n + 1, bs => andThen (p bs) fun x bs => andThen (parseMany p n bs) fun xs bs => .ok (x :: xs, bs)

/-- A list: how many items, then the items. -/
def parseList {α : Type} (p : Bytes → Parsed α) (bs : Bytes) : Parsed (List α) :=
  andThen (parseNat bs) fun n bs => parseMany p n bs

/-- Form 0: zeros; 1: a literal; 2: a variable. -/
def parseBytesOperand (bs : Bytes) : Parsed BytesOperand :=
  andThen (parseByte bs) fun form bs =>
    if form = 0 then .ok (.zeros, bs)
    else if form = 1 then andThen (parseList parseByte bs) fun buf bs => .ok (.lit buf, bs)
    else if form = 2 then andThen (parseNat bs) fun x bs => .ok (.var x, bs)
    else .error (.badForm form)

/-- Form 0: zeros; 1: a literal; 2: a variable. -/
def parseVecOperand (bs : Bytes) : Parsed VecOperand :=
  andThen (parseByte bs) fun form bs =>
    if form = 0 then .ok (.zeros, bs)
    else if form = 1 then andThen (parseList parseBit bs) fun v bs => .ok (.lit v, bs)
    else if form = 2 then andThen (parseNat bs) fun x bs => .ok (.var x, bs)
    else .error (.badForm form)

/-- Form 0: a literal; 1: a variable. -/
def parseNatOperand (bs : Bytes) : Parsed NatOperand :=
  andThen (parseByte bs) fun form bs =>
    if form = 0 then andThen (parseNat bs) fun n bs => .ok (.lit n, bs)
    else if form = 1 then andThen (parseNat bs) fun x bs => .ok (.var x, bs)
    else .error (.badForm form)

/-- Form 0: a literal; 1: a variable. -/
def parseBitOperand (bs : Bytes) : Parsed BitOperand :=
  andThen (parseByte bs) fun form bs =>
    if form = 0 then andThen (parseNat bs) fun n bs => .ok (.lit n, bs)
    else if form = 1 then andThen (parseNat bs) fun x bs => .ok (.var x, bs)
    else .error (.badForm form)

/-- Form 0: zeros; 1: a literal; 2: in place. -/
def parseTargetOperand (bs : Bytes) : Parsed TargetOperand :=
  andThen (parseByte bs) fun form bs =>
    if form = 0 then .ok (.zeros, bs)
    else if form = 1 then andThen (parseList parseBit bs) fun v bs => .ok (.lit v, bs)
    else if form = 2 then .ok (.inPlace, bs)
    else .error (.badForm form)

/-- Form 0: the default; 1: a literal; 2: a variable. -/
def parseSizeOperand (bs : Bytes) : Parsed SizeOperand :=
  andThen (parseByte bs) fun form bs =>
    if form = 0 then .ok (.default, bs)
    else if form = 1 then andThen (parseNat bs) fun n bs => .ok (.lit n, bs)
    else if form = 2 then andThen (parseNat bs) fun x bs => .ok (.var x, bs)
    else .error (.badForm form)

/-- 0: little; `n + 1`: the other value numbered `n`. -/
def bitOrderOfNat : Nat → BitOrder
  | 0 => .little
  | n + 1 => .other n

/-- The bit order, a natural. -/
def parseBitOrder (bs : Bytes) : Parsed BitOrder :=
  andThen (parseNat bs) fun n bs => .ok (bitOrderOfNat n, bs)

/-- The predicates, numbered 0 to 8 in the order of `Pred`. -/
def parsePred (bs : Bytes) : Parsed Pred :=
  andThen (parseByte bs) fun form bs =>
    if form = 0 then .ok (.data, bs)
    else if form = 1 then .ok (.group, bs)
    else if form = 2 then .ok (.global, bs)
    else if form = 3 then andThen (parseNat bs) fun i bs => .ok (.cover i, bs)
    else if form = 4 then .ok (.isData, bs)
    else if form = 5 then .ok (.isGroup, bs)
    else if form = 6 then andThen (parseNat bs) fun i bs => .ok (.bitSet i, bs)
    else if form = 7 then andThen (parseList parseNat bs) fun ps bs => .ok (.listed ps, bs)
    else if form = 8 then andThen (parseList parseNat bs) fun ps bs => .ok (.notListed ps, bs)
    else .error (.badForm form)

/-- The second result's variable, numbered among the variables other than the first result's, so that every number
names a variable distinct from the first. -/
def secondName (first n : Nat) : Nat := if n < first then n else n + 1

/-- The operands of the operation with code `op`, `none` for a code that names no operation (R69, R70). -/
def parseOperands (op : Nat) (bs : Bytes) : Option (Parsed Instr) :=
  match op with
  | 0x1 => some <| andThen (parseNat bs) fun c bs => andThen (parseBytesOperand bs) fun m bs => .ok (.encode c m, bs)
  | 0x2 => some <| andThen (parseNat bs) fun m bs => andThen (parseNat bs) fun n bs =>
      andThen (parseBytesOperand bs) fun c bs => .ok (.decode m (secondName m n) c, bs)
  | 0x3 => some <| andThen (parseNat bs) fun syn bs => andThen (parseNat bs) fun n bs =>
      andThen (parseVecOperand bs) fun r bs => andThen (parseVecOperand bs) fun f bs =>
        .ok (.syndrome syn (secondName syn n) r f, bs)
  | 0x4 => some <| andThen (parseNat bs) fun x bs => andThen (parseVecOperand bs) fun a bs =>
      andThen (parseVecOperand bs) fun b bs => .ok (.bvXor x a b, bs)
  | 0x5 => some <| andThen (parseNat bs) fun b bs => andThen (parseVecOperand bs) fun v bs => .ok (.bvParity b v, bs)
  | 0x6 => some <| andThen (parseNat bs) fun w bs => andThen (parseVecOperand bs) fun v bs =>
      andThen (parsePred bs) fun p bs => .ok (.bvSelectWhere w v p, bs)
  | 0x7 => some <| andThen (parseNat bs) fun w bs => andThen (parseVecOperand bs) fun v bs =>
      andThen (parseNatOperand bs) fun n bs => .ok (.bvPadTo w v n, bs)
  | 0x8 => some <| andThen (parseNat bs) fun v bs => andThen (parseBytesOperand bs) fun buf bs =>
      andThen (parseBitOrder bs) fun order bs => .ok (.bvFromBytes v buf order, bs)
  | 0x9 => some <| andThen (parseNat bs) fun buf bs => andThen (parseVecOperand bs) fun v bs =>
      .ok (.bvToBytes buf v, bs)
  | 0xA => some <| andThen (parseNat bs) fun b bs => andThen (parseVecOperand bs) fun v bs =>
      andThen (parseNatOperand bs) fun i bs => .ok (.bvGet b v i, bs)
  | 0xB => some <| andThen (parseNat bs) fun v bs => andThen (parseTargetOperand bs) fun old bs =>
      andThen (parseNatOperand bs) fun i bs => andThen (parseBitOperand bs) fun b bs => .ok (.bvSet v old i b, bs)
  | 0xC => some <| andThen (parseNat bs) fun v bs => andThen (parseNatOperand bs) fun n bs => .ok (.bvOfSize v n, bs)
  | 0xD => some <| andThen (parseSizeOperand bs) fun s bs => .ok (.layout s, bs)
  | _ => none

/-- The first instruction of a byte string and the bytes after it. -/
def decodeInstr : Bytes → Parsed Instr
  | [] => .error .truncated
  | b :: bs =>
    match parseOperands b.toNat bs with
    | none => .error (.reservedOperation b)
    | some r => r

/-! ## The encoder -/

/-- `natBytes` with a bound on the number of bytes. -/
def natBytesUpTo : Nat → Nat → Bytes
  | 0, _ => []
  | fuel + 1, n =>
    if n < 128 then [BitVec.ofNat 8 n]
    else BitVec.ofNat 8 (n % 128 + 128) :: natBytesUpTo fuel (n / 128)

/-- A natural, seven bits a byte, least significant first. -/
def natBytes (n : Nat) : Bytes := natBytesUpTo (n + 1) n

/-- A literal vector's element. -/
def bitByte (b : Bool) : Byte := if b then 1 else 0

/-- A literal vector: its length, then its elements. -/
def vecBytes (v : Bits) : Bytes := natBytes v.length ++ v.map bitByte

/-- A literal buffer: its length, then its bytes. -/
def bufBytes (buf : Bytes) : Bytes := natBytes buf.length ++ buf

/-- A list of positions: its length, then the positions. -/
def natListBytes (ps : List Nat) : Bytes := natBytes ps.length ++ ps.flatMap natBytes

/-- The bytes of an operand. -/
def bytesOperandBytes : BytesOperand → Bytes
  | .zeros => [0]
  | .lit buf => 1 :: bufBytes buf
  | .var x => 2 :: natBytes x

/-- The bytes of an operand. -/
def vecOperandBytes : VecOperand → Bytes
  | .zeros => [0]
  | .lit v => 1 :: vecBytes v
  | .var x => 2 :: natBytes x

/-- The bytes of an operand. -/
def natOperandBytes : NatOperand → Bytes
  | .lit n => 0 :: natBytes n
  | .var x => 1 :: natBytes x

/-- The bytes of an operand. -/
def bitOperandBytes : BitOperand → Bytes
  | .lit n => 0 :: natBytes n
  | .var x => 1 :: natBytes x

/-- The bytes of an operand. -/
def targetOperandBytes : TargetOperand → Bytes
  | .zeros => [0]
  | .lit v => 1 :: vecBytes v
  | .inPlace => [2]

/-- The bytes of an operand. -/
def sizeOperandBytes : SizeOperand → Bytes
  | .default => [0]
  | .lit n => 1 :: natBytes n
  | .var x => 2 :: natBytes x

/-- The bytes of a bit order. -/
def bitOrderBytes : BitOrder → Bytes
  | .little => natBytes 0
  | .other n => natBytes (n + 1)

/-- The bytes of a predicate. -/
def predBytes : Pred → Bytes
  | .data => [0]
  | .group => [1]
  | .global => [2]
  | .cover i => 3 :: natBytes i
  | .isData => [4]
  | .isGroup => [5]
  | .bitSet i => 6 :: natBytes i
  | .listed ps => 7 :: natListBytes ps
  | .notListed ps => 8 :: natListBytes ps

/-- The number of the second result's variable among the variables other than the first's (see `secondName`). -/
def secondCode (first second : Nat) : Nat := if second < first then second else second - 1

/-- The 4-bit operation code of an operation (30_encoding.md R69). -/
def opCode : Instr → Byte
  | .encode _ _ => 0x1
  | .decode _ _ _ => 0x2
  | .syndrome _ _ _ _ => 0x3
  | .bvXor _ _ _ => 0x4
  | .bvParity _ _ => 0x5
  | .bvSelectWhere _ _ _ => 0x6
  | .bvPadTo _ _ _ => 0x7
  | .bvFromBytes _ _ _ => 0x8
  | .bvToBytes _ _ => 0x9
  | .bvGet _ _ _ => 0xA
  | .bvSet _ _ _ _ => 0xB
  | .bvOfSize _ _ => 0xC
  | .layout _ => 0xD

/-- The operand bytes of an operation, destinations first. -/
def operandBytes : Instr → Bytes
  | .encode c m => natBytes c ++ bytesOperandBytes m
  | .decode m st c => natBytes m ++ natBytes (secondCode m st) ++ bytesOperandBytes c
  | .syndrome syn g r f => natBytes syn ++ natBytes (secondCode syn g) ++ vecOperandBytes r ++ vecOperandBytes f
  | .bvXor x a b => natBytes x ++ vecOperandBytes a ++ vecOperandBytes b
  | .bvParity b v => natBytes b ++ vecOperandBytes v
  | .bvSelectWhere w v pred => natBytes w ++ vecOperandBytes v ++ predBytes pred
  | .bvPadTo w v n => natBytes w ++ vecOperandBytes v ++ natOperandBytes n
  | .bvFromBytes v buf order => natBytes v ++ bytesOperandBytes buf ++ bitOrderBytes order
  | .bvToBytes buf v => natBytes buf ++ vecOperandBytes v
  | .bvGet b v i => natBytes b ++ vecOperandBytes v ++ natOperandBytes i
  | .bvSet v old i b => natBytes v ++ targetOperandBytes old ++ natOperandBytes i ++ bitOperandBytes b
  | .bvOfSize v n => natBytes v ++ natOperandBytes n
  | .layout s => sizeOperandBytes s

/-- The bytes of an instruction. -/
def encodeInstr (i : Instr) : Bytes := opCode i :: operandBytes i

/-! ## The host's numbering of an instruction's bits -/

/-- How many zero bytes the longest instruction has whose operand bytes are all zero: BV_SET, with a name, a target form,
and a form and a value for the index and for the bit. -/
def longestZeroOperands : Nat := 6

/-- The bytes of the number `w` of `nbits` bits, bits 7:0 first, then zero bytes up to the longest instruction. -/
def tableBytes (nbits w : Nat) : Bytes :=
  (List.range ((nbits + 7) / 8)).map (fun j => BitVec.ofNat 8 (w >>> (8 * j))) ++ List.replicate longestZeroOperands 0

/-- The bytes of the one instruction that `tableBytes` begins with (all of them where it begins with none). -/
def tableInstrBytes (nbits w : Nat) : Bytes :=
  match decodeInstr (tableBytes nbits w) with
  | .ok (_, rest) => (tableBytes nbits w).take ((tableBytes nbits w).length - rest.length)
  | .error _ => tableBytes nbits w

/-- What the decoder reads from an instruction whose bits are `w`, numbered as spec/opcode_table.json numbers them. -/
def decodeTableWord (nbits w : Nat) : Option Instr :=
  match decodeInstr (tableBytes nbits w) with
  | .ok (i, _) => some i
  | .error _ => none

end Sys2Proof
end

