-- ==== Sys2Proof/Machine/Fetch.lean ====
section
/-! DEFINITION. The host's sequencing of a program: the next line, and going on to the one after it (30_encoding.md R74:
"the host runs the lines in order"). -/

namespace Sys2Proof.Machine

/-- The next line and the lines after it, or why there is none (log entries 1 and 7). -/
def fetch (program : Bytes) : Except Refusal (Instr × Bytes) :=
  match program with
  | [] => .error .programEnded
  | _ :: _ =>
    match decodeInstr program with
    | .ok (i, rest) => .ok (i, rest)
    | .error (.reservedOperation b) => .error (.reservedOperation b)
    | .error _ => .error .malformedOperands

/-- Go on to the next line, with the lines `rest` before the host. -/
def State.advance (s : State) (rest : Bytes) : State := { s with program := rest, line := s.line + 1 }

end Sys2Proof.Machine
end

