-- ==== Sys2Proof/Machine/Step.lean ====
section
/-! DEFINITION. One step: the host issues the next line, and goes on to the one after it. -/

namespace Sys2Proof.Machine

/-- One line of the program. -/
def step (s : State) : Host.Outcome State Fault Refusal :=
  match fetch s.program with
  | .error r => .refused r
  | .ok (i, rest) =>
    match exec i s with
    | .next t => .next (t.advance rest)
    | .fault e => .fault e
    | .refused r => .refused r

/-- `s` with the one instruction whose bits are `w` loaded as its program (log entry 2). -/
def State.withFetchWord (s : State) (nbits w : Nat) : State := { s with program := tableInstrBytes nbits w }

end Sys2Proof.Machine
end

