-- ==== Sys2Proof/Machine/Units.lean ====
section
/-! DEFINITION. The four units at their ports (30_encoding.md R73): each a combinational function of its input levels
and the layout (92_eei_decisions.md D1), built as 40_bitvector.md R110, 41_encoder.md R145, 42_syndrome.md R166 and
43_decoder.md R191 say. They are written without the operations' meanings, which they are stated to agree with. -/

namespace Sys2Proof.Machine

/-- A bus of `n` bits whose bit `i` is element `i` of `v` (20_memory.md R44). -/
def bus (n : Nat) (v : Bits) : BitVec n := BitVec.ofNat n (uint v)

/-- The bits of a bus, bit 0 first (R44). -/
def busBits {n : Nat} (x : BitVec n) : Bits := (List.range n).map x.getLsbD

/-- The bytes of a byte-valued port: byte `j` is bus bits `8j+7 : 8j` (R44). -/
def busBytes {n : Nat} (x : BitVec n) : Bytes := bvToBytes (busBits x)

/-- The outputs of `bitvector_parity_xor #(N)`. -/
structure ParityXorOut (N : Nat) where
  x : BitVec N
  parityA : Bool
  deriving DecidableEq, Repr

/-- `bitvector_parity_xor #(N)` (R110). -/
def parityXorUnit {N : Nat} (a b : BitVec N) : ParityXorOut N :=
  { x := a ^^^ b, parityA := bvParity (busBits a) }

/-- The parity output of an instance as wide as the vector it is wired to (its second operand is not used). -/
def parityTree (v : Bits) : Bool := (parityXorUnit (bus v.length v) 0).parityA

/-- The parity tree of group `i` over `COVER(i)`, for the data bit `data j` at each DATA position (R145). -/
def groupTree (L : Layout) (data : Nat → Bool) (i : Nat) : Bool :=
  parityTree ((L.cover i).map fun p => data (didx p))

/-- Codeword position `p`, but for the global bit: a group bit from its tree, a data bit by wiring (R145, R64). -/
def codeWire (L : Layout) (data : Nat → Bool) (p : Nat) : Bool :=
  if p = 0 then false else if isPow2 p then groupTree L data (Nat.log2 p) else data (didx p)

/-- The global bit: the parity of all data bits and all group bits (R145). -/
def globalTree (L : Layout) (data : Nat → Bool) : Bool :=
  parityTree ((List.range L.T).map (codeWire L data))

/-- `hamming_secded_encoder #(s)`: `code_out` for `data_in`, with the padding bits 0 (R145, R62). -/
def encoderUnit (L : Layout) (dataIn : BitVec (8 * L.s)) : BitVec (8 * L.OB) :=
  bus (8 * L.OB) ((List.range L.T).map fun p =>
    if p = 0 then globalTree L dataIn.getLsbD else codeWire L dataIn.getLsbD p)

/-- The outputs of `syndrome_compute_unit #(s)`. -/
structure SyndromeOut (L : Layout) where
  syndrome : BitVec L.k
  globalMismatch : Bool
  deriving DecidableEq, Repr

/-- `syndrome_compute_unit #(s)`: one instance of width `k` on the group positions, one of width `T` on `received`
(R166). -/
def syndromeUnit (L : Layout) (received reference : BitVec L.T) : SyndromeOut L :=
  { syndrome :=
      (parityXorUnit (bus L.k ((List.range L.k).map fun i => received.getLsbD (2 ^ i)))
        (bus L.k ((List.range L.k).map fun i => reference.getLsbD (2 ^ i)))).x
    globalMismatch := (parityXorUnit received 0).parityA }

/-- The outputs of `hamming_secded_decoder #(s)`. -/
structure DecoderOut (L : Layout) where
  dataOut : BitVec (8 * L.s)
  status : BitVec 2
  deriving DecidableEq, Repr

/-- `hamming_secded_decoder #(s)`: the DATA wiring, an encoder copy for the reference's group bits, a
`syndrome_compute_unit`, a comparator, and the conditional inverter of data bit `DIDX(n)` (R191). -/
def decoderUnit (L : Layout) (codeIn : BitVec (8 * L.OB)) : DecoderOut L :=
  let cand : Nat → Bool := fun j => codeIn.getLsbD (L.dpos.getD j 0)
  let received := bus L.T ((List.range L.T).map codeIn.getLsbD)
  let reference := bus L.T ((List.range L.T).map (codeWire L cand))
  let out := syndromeUnit L received reference
  let n := out.syndrome.toNat
  let corrects := decide (n ≠ 0) && out.globalMismatch && decide (n < L.T)
  let invert : Nat → Bool := fun j => corrects && isData n && decide (j = didx n)
  { dataOut := bus (8 * L.s) ((List.range L.d).map fun j => xor (cand j) (invert j))
    status := if corrects then 0b01 else if decide (n = 0) && !out.globalMismatch then 0b00 else 0b10 }

end Sys2Proof.Machine
end

