-- ==== Sys2Proof/Safety.lean ====
section
/-! DEFINITION. What a good state is and what a safe run is, in the terms that claims use. -/

namespace Sys2Proof.Safety

open Sys2Proof.Machine

/-- The error results stand under rising lines below the present one. -/
def errorLinesRise (s : State) : Prop :=
  (s.errors.map Prod.fst).Pairwise (· < ·) ∧ ∀ x ∈ s.errors, x.1 < s.line

/-- Only InvalidLength is ever returned as an error result (60_exceptions.md R228). -/
def errorsAreLengths (s : State) : Prop := ∀ x ∈ s.errors, x.2.code = 2

/-- A good state: the layout is one that LAYOUT returns (10_state.md R20), the store of program variables is in its
canonical form, and the record of error results is in order. -/
structure Inv (s : State) : Prop where
  layout : s.layout.wf = true
  vars : varsWf s.vars = true
  rising : errorLinesRise s
  lengths : errorsAreLengths s

/-- The block size of the state is one that a given hardware can be built for (00_scope.md R9). No statement of the
model needs it: a claim about one implementation may add it. -/
def Realisable (s : State) : Prop := s.layout.s ≤ Config.sMax

/-- An operation that completes: neither a fault nor a refusal. -/
def completes (i : Instr) (s : State) : Prop := ∃ t, exec i s = .next t

/-- An operation that does not fault; what the spec says of ENCODE, DECODE and SYNDROME (60_exceptions.md R228). -/
def neverFaults (i : Instr) (s : State) : Prop := ∀ e, exec i s ≠ .fault e

/-! ## Words of the rules that statements use, written apart from the operations' meanings -/

/-- Bit `i` of a byte buffer in the little order (20_memory.md R41). -/
def bufBit (buf : Bytes) (i : Nat) : Bool := (buf.getD (i / 8) 0).getLsbD (i % 8)

/-- Whether an odd number of the positions `ps` hold a 1: their parity (00_scope.md R12). -/
def oddOnes (ps : List Nat) (bit : Nat → Bool) : Bool := decide ((ps.filter bit).length % 2 = 1)

/-- The frame `c` with the bits at the positions of `E` inverted (95_test_vectors.md, "Flip `p`"). -/
def flipFrame (c : Bytes) (E : List Nat) : Bytes :=
  bvToBytes ((List.range (8 * c.length)).map fun p => xor (bufBit c p) (decide (p ∈ E)))

/-- The vector `w` with the elements at the positions of `E` inverted (42_syndrome.md R165). -/
def flipVec (w : Bits) (E : List Nat) : Bits :=
  (List.range w.length).map fun p => xor (w.getD p false) (decide (p ∈ E))

/-- The syndrome of a received word in terms of that word alone: group `i` mismatches when an odd number of the positions
`{2^i} ∪ COVER(i)` hold a 1 (42_syndrome.md R164(a)); its value has weight `2^i` on group `i` (R162). -/
def receivedSyndrome (L : Layout) (bit : Nat → Bool) : Nat :=
  uint ((List.range L.k).map fun i => oddOnes (2 ^ i :: L.cover i) bit)

/-- The exclusive or of the positions of `E` as naturals (R165). -/
def positionsXor (E : List Nat) : Nat := E.foldr (· ^^^ ·) 0

/-- The exclusive or of two byte buffers, byte by byte (41_encoder.md R148). -/
def bytesXor (a b : Bytes) : Bytes := List.zipWith (· ^^^ ·) a b

end Sys2Proof.Safety
end

