-- ==== Sys2Proof/Certificates/Slice0/Obligations.lean ====
section
/-! DEFINITION. The statements for the provers. Every hypothesis is on the state and the operands alone; `readBytes`,
`readVec`, `readNat`, `readBit` and `readSize` are the operand forms, which `OperandsReadTheirForms` states. Where a
statement lets a result's name be an operand's, or a name that already has a value, that the host may write it so and the
old value is replaced is the model's choice (log entry 22). -/

open Sys2Proof Sys2Proof.Machine Sys2Proof.Safety

/-! ## The layout -/

/-- 10_state.md R30's construction for `s >= 1`, with the sizes of R21 to R24; `k` is the smallest number that meets R22's
condition. That LAYOUT at any state makes its layout the current one is the model's choice (log entry 3), and so is that it
completes for every such `s`, with no upper bound (log entry 10, unsafe: 00_scope.md R9 leaves the bound open), and that
the size may be left out or read from a program variable (log entries 11 and 20). -/
def Obligations.LayoutConstructsTheSizes : Prop :=
  ∀ (s : State) (size : SizeOperand) (n : Nat), readSize size s = .ok n → 1 ≤ n →
    ∃ L : Layout, exec (.layout size) s = .next { s with layout := L } ∧
      L.s = n ∧ L.d = 8 * n ∧
      (2 ^ L.k ≥ L.d + L.k + 1 ∧ ∀ j, 2 ^ j ≥ L.d + j + 1 → L.k ≤ j) ∧
      L.T = L.d + L.k + 1 ∧
      (L.OB = (L.T + 7) / 8 ∧ 8 * L.OB ≥ L.T ∧ 8 * L.OB < L.T + 8)

/-- 60_exceptions.md R222 and R228: LAYOUT with `s < 1` fails with InvalidBlockSize, a refusal of the configuration. That
this is so at any state, and for a size read from a program variable, is the model's choice (log entries 3 and 20). -/
def Obligations.LayoutRefusesBlockSizeBelowOne : Prop :=
  ∀ (s : State) (size : SizeOperand) (n : Nat), readSize size s = .ok n → n < 1 →
    exec (.layout size) s = .refused (.invalidBlockSize n)

/-- That the layout after reset is that of `s = 1`, with `d=8, k=4, T=13, OB=2`, is the model's inference (log entry 9,
unsafe): 70_reset_and_hazards.md R250 gives the layout after reset only as the elaboration values, and the model takes the
default `s` of 00_scope.md R8 for them. No program variable has a value (95_test_vectors.md section 3). -/
def Obligations.ResetHasTheDefaultLayoutAndNoVariables : Prop :=
  State.reset.layout = { s := 1, d := 8, k := 4, T := 13, OB := 2 } ∧ ∀ x, State.reset.readVar x = none

/-- 10_state.md R25: every position has exactly one role, and the GROUP positions are the powers of two. -/
def Obligations.EveryPositionHasOneRole : Prop :=
  ∀ p : Nat, (isGlobal p).toNat + (isGroup p).toNat + (isData p).toNat = 1 ∧
    (isGlobal p = true ↔ p = 0) ∧ (isGroup p = true ↔ ∃ i, p = 2 ^ i)

/-- 10_state.md R26: the GROUP positions are `2^0 .. 2^(k-1)`, all below `T`, `2^k` is no position, and there are exactly
`k` of them and `T - 1 - k = d` DATA positions. -/
def Obligations.GroupPositionsAreTheFirstPowersOfTwo : Prop :=
  ∀ L : Layout, L.wf = true →
    L.gpos = (List.range L.k).map (2 ^ ·) ∧ (∀ i, i < L.k → 2 ^ i < L.T) ∧ L.T ≤ 2 ^ L.k ∧
      L.gpos.length = L.k ∧ L.dpos.length = L.T - 1 - L.k ∧ L.dpos.length = L.d

/-- 10_state.md R27: `DPOS` is the ascending list of the DATA positions, `DIDX` is its inverse, data bit `j` of a block is
carried at `DPOS(j)` of its codeword, and the two lists that the rule writes out. -/
def Obligations.DataIndexInvertsDataPosition : Prop :=
  (∀ L : Layout, L.wf = true →
    L.dpos.Pairwise (· < ·) ∧ L.dpos.length = L.d ∧
      (∀ p, p ∈ L.dpos ↔ p < L.T ∧ isData p = true) ∧
      (∀ j, j < L.d → ∃ p, L.dpos[j]? = some p ∧ didx p = j) ∧
      (∀ p, p < L.T → isData p = true → L.dpos[didx p]? = some p) ∧
      ∀ m c, encodeBlock L m = .ok c → ∀ j p, L.dpos[j]? = some p → bufBit c p = bufBit m j) ∧
  (layoutOf 1).dpos = [3, 5, 6, 7, 9, 10, 11, 12] ∧
  (layoutOf 2).dpos = [3, 5, 6, 7, 9, 10, 11, 12, 13, 14, 15, 17, 18, 19, 20, 21]

/-- 10_state.md R28: `COVER(i)`, ascending; DATA positions only; and the table for `s = 1`. For an `i` that is no group index
(`i ≥ k`) the rule says nothing, and that it is the same set of positions is the model's choice (log entry 21). -/
def Obligations.CoverHoldsTheDataPositionsOfItsGroup : Prop :=
  (∀ (L : Layout) (i p : Nat),
    (L.cover i).Pairwise (· < ·) ∧
      (p ∈ L.cover i ↔ 1 ≤ p ∧ p < L.T ∧ (¬ ∃ j, p = 2 ^ j) ∧ (p >>> i) % 2 = 1) ∧
      (p ∈ L.cover i → isData p = true)) ∧
  (layoutOf 1).cover 0 = [3, 5, 7, 9, 11] ∧ (layoutOf 1).cover 1 = [3, 6, 7, 10, 11] ∧
  (layoutOf 1).cover 2 = [5, 6, 7, 12] ∧ (layoutOf 1).cover 3 = [9, 10, 11, 12]

/-- 10_state.md R31: below 9000 the repository's formula differs from `k` exactly at ten block sizes, where it gives one
bit fewer. -/
def Obligations.RepositoryFormulaDiffersAtTenBlockSizes : Prop :=
  ∀ s : Nat, 1 ≤ s → s < 9000 →
    (layoutOf s).k = Nat.log2 (8 * s) + 1 +
      if s ∈ [31, 63, 127, 255, 511, 1023, 2047, 4095, 8190, 8191] then 1 else 0

/-! ## Encoding and fetching -/

/-- Decoding the bytes of a well-formed instruction gives it back, whatever follows it. The operation codes are
30_encoding.md R69; the operands' bytes are the model's choice (log entry 1). -/
def Obligations.DecodeOfEncodeIsTheInstruction : Prop :=
  ∀ (i : Instr) (rest : Bytes), i.wellFormed = true → decodeInstr (encodeInstr i ++ rest) = .ok (i, rest)

/-- Bytes that decode are the bytes of the instruction they decode to, which is well formed: no two byte strings mean
one instruction (log entry 1). -/
def Obligations.EncodeOfDecodeIsTheBytes : Prop :=
  ∀ (bs rest : Bytes) (i : Instr), decodeInstr bs = .ok (i, rest) →
    bs = encodeInstr i ++ rest ∧ i.wellFormed = true

/-- Each of the 13 operation codes of 30_encoding.md R69, with zero operand bytes after it, decodes to its own operation.
Which operation has which code is R69's; what the zero operand bytes mean (the forms `zeros` and `default`, the number 0,
the second name 1) is the model's choice (log entries 1 and 11). -/
def Obligations.EveryOperationCodeDecodesToItsOperation : Prop :=
  decodeTableWord 4 0x1 = some (.encode 0 .zeros) ∧
  decodeTableWord 4 0x2 = some (.decode 0 1 .zeros) ∧
  decodeTableWord 4 0x3 = some (.syndrome 0 1 .zeros .zeros) ∧
  decodeTableWord 4 0x4 = some (.bvXor 0 .zeros .zeros) ∧
  decodeTableWord 4 0x5 = some (.bvParity 0 .zeros) ∧
  decodeTableWord 4 0x6 = some (.bvSelectWhere 0 .zeros .data) ∧
  decodeTableWord 4 0x7 = some (.bvPadTo 0 .zeros (.lit 0)) ∧
  decodeTableWord 4 0x8 = some (.bvFromBytes 0 .zeros .little) ∧
  decodeTableWord 4 0x9 = some (.bvToBytes 0 .zeros) ∧
  decodeTableWord 4 0xA = some (.bvGet 0 .zeros (.lit 0)) ∧
  decodeTableWord 4 0xB = some (.bvSet 0 .zeros (.lit 0) (.lit 0)) ∧
  decodeTableWord 4 0xC = some (.bvOfSize 0 (.lit 0)) ∧
  decodeTableWord 4 0xD = some (.layout .default)

/-- 30_encoding.md R70: the codes 0x0, 0xE and 0xF name no operation and are refused, whatever follows. -/
def Obligations.ReservedOperationCodesAreRefused : Prop :=
  ∀ (s : State) (rest : Bytes) (b : Byte), b = 0x0 ∨ b = 0xE ∨ b = 0xF → s.program = b :: rest →
    step s = .refused (.reservedOperation b)

/-- When the bytes before the host decode to an instruction, a step is that instruction at that state, and where it goes
on, going on to the line after it (30_encoding.md R74: the host runs the lines in order). How the model holds this is its
own choice: the lines still to run as a byte string that is consumed from the front (log entries 1 and 2), and the number
of the next line (log entry 8). -/
def Obligations.StepRunsTheDecodedInstruction : Prop :=
  ∀ (s : State) (i : Instr) (rest : Bytes), decodeInstr s.program = .ok (i, rest) →
    (∀ t, exec i s = .next t → step s = .next { t with program := rest, line := s.line + 1 }) ∧
    (∀ e, exec i s = .fault e → step s = .fault e) ∧
    (∀ r, exec i s = .refused r → step s = .refused r)

/-- The model's choice (log entry 7): with no line left there is nothing to run, and a step is refused as the end of the
program. -/
def Obligations.NoLineLeftEndsTheProgram : Prop :=
  ∀ s : State, s.program = [] → step s = .refused .programEnded

/-- A program of `n` bytes ends within `n` lines: every line that completes takes at least one byte (60_exceptions.md
R235: operations are bounded; 70_reset_and_hazards.md R258: a program ends after its last operation). The bytes of a line,
and the program as a byte string consumed from the front, are the model's choice (log entries 1 and 2). -/
def Obligations.ProgramsEndWithinTheirLength : Prop :=
  ∀ (s t : State) (n : Nat), Host.Core.run Sys2Proof.core n s = .next t → n + t.program.length ≤ s.program.length

/-! ## Operands -/

/-- 30_encoding.md R74: a literal operand is its value and a variable operand is the variable's value, of the operand's
kind. A LAYOUT without a size has the default of 00_scope.md R8; BV_SET's target in place is the variable itself
(40_bitvector.md R104, log entry 17); a value to write that is neither 0 nor 1 is refused (R104). Of the model's own choice
or inference: the form `zeros`, a LAYOUT without a size and a target that starts from a literal (log entry 11); a size
read from a variable (log entry 20); a bit is
the number 0 or 1, and such a number is a bit (log entry 16); a variable with no value, or with one of another kind, is
refused (log entries 4 and 5). -/
def Obligations.OperandsReadTheirForms : Prop :=
  ∀ (s : State) (x w : Nat),
    (∀ b, readBytes (.lit b) w s = .ok b) ∧ readBytes .zeros w s = .ok (List.replicate w 0) ∧
    (∀ v, readVec (.lit v) s = .ok v) ∧ readVec .zeros s = .ok (List.replicate s.layout.T false) ∧
    (∀ n, readNat (.lit n) s = .ok n) ∧ (∀ n, readSize (.lit n) s = .ok n) ∧ readSize .default s = .ok 1 ∧
    readBit (.lit 0) s = .ok false ∧ readBit (.lit 1) s = .ok true ∧
    (∀ n, 2 ≤ n → readBit (.lit n) s = .error (.notABit n)) ∧
    TargetOperand.toVec x .inPlace = .var x ∧ TargetOperand.toVec x .zeros = .zeros ∧
    (∀ v, TargetOperand.toVec x (.lit v) = .lit v) ∧
    (∀ b, s.readVar x = some (.bytes b) → readBytes (.var x) w s = .ok b ∧
      readVec (.var x) s = .error (.otherKind x) ∧ readNat (.var x) s = .error (.otherKind x) ∧
      readBit (.var x) s = .error (.otherKind x) ∧ readSize (.var x) s = .error (.otherKind x)) ∧
    (∀ v, s.readVar x = some (.vec v) → readVec (.var x) s = .ok v ∧
      readBytes (.var x) w s = .error (.otherKind x) ∧ readNat (.var x) s = .error (.otherKind x) ∧
      readBit (.var x) s = .error (.otherKind x) ∧ readSize (.var x) s = .error (.otherKind x)) ∧
    (∀ n, s.readVar x = some (.nat n) → readNat (.var x) s = .ok n ∧ readSize (.var x) s = .ok n ∧
      (n = 0 → readBit (.var x) s = .ok false) ∧ (n = 1 → readBit (.var x) s = .ok true) ∧
      (2 ≤ n → readBit (.var x) s = .error (.notABit n)) ∧
      readBytes (.var x) w s = .error (.otherKind x) ∧ readVec (.var x) s = .error (.otherKind x)) ∧
    (∀ b, s.readVar x = some (.bit b) → readBit (.var x) s = .ok b ∧ readNat (.var x) s = .ok b.toNat ∧
      readSize (.var x) s = .ok b.toNat ∧
      readBytes (.var x) w s = .error (.otherKind x) ∧ readVec (.var x) s = .error (.otherKind x)) ∧
    (∀ st, s.readVar x = some (.status st) → readBytes (.var x) w s = .error (.otherKind x) ∧
      readVec (.var x) s = .error (.otherKind x) ∧ readNat (.var x) s = .error (.otherKind x) ∧
      readBit (.var x) s = .error (.otherKind x) ∧ readSize (.var x) s = .error (.otherKind x)) ∧
    (s.readVar x = none →
      readBytes (.var x) w s = .error (.noValue x) ∧ readVec (.var x) s = .error (.noValue x) ∧
      readNat (.var x) s = .error (.noValue x) ∧ readBit (.var x) s = .error (.noValue x) ∧
      readSize (.var x) s = .error (.noValue x))

/-- Which positions each predicate name selects. `DATA`, `GROUP` and `GLOBAL` are 30_encoding.md R74's (DATA and GROUP
bounded by `T`), and `cover i` is the set of 10_state.md R28; the names `isData`, `isGroup` (the roles of R25 without the
bound), `bitSet`, `listed`, `notListed`, and `cover` as a name, are the model's choice (log entry 14), and so is `cover i` where `i`
is no group index (log entry 21). -/
def Obligations.PredicatesSelectTheirPositions : Prop :=
  ∀ (L : Layout) (p i : Nat) (ps : List Nat),
    (L.holds .data p = true ↔ p < L.T ∧ 0 < p ∧ ¬ ∃ j, p = 2 ^ j) ∧
    (L.holds .group p = true ↔ p < L.T ∧ ∃ j, p = 2 ^ j) ∧
    (L.holds .global p = true ↔ p = 0) ∧
    (L.holds (.cover i) p = true ↔ p < L.T ∧ 0 < p ∧ (¬ ∃ j, p = 2 ^ j) ∧ (p >>> i) % 2 = 1) ∧
    (L.holds .isData p = true ↔ 0 < p ∧ ¬ ∃ j, p = 2 ^ j) ∧
    (L.holds .isGroup p = true ↔ ∃ j, p = 2 ^ j) ∧
    (L.holds (.bitSet i) p = true ↔ (p >>> i) % 2 = 1) ∧
    (L.holds (.listed ps) p = true ↔ p ∈ ps) ∧ (L.holds (.notListed ps) p = true ↔ p ∉ ps)

/-! ## The BitVector operations -/

/-- 40_bitvector.md R101: BV_OF_SIZE, code 0xC, completes with `n` zeros, and never otherwise. -/
def Obligations.BvOfSizeIsZeroFilled : Prop :=
  ∀ (s : State) (dst n : Nat) (o : NatOperand), readNat o s = .ok n →
    opCode (.bvOfSize dst o) = 0xC ∧
    ∃ v : Bits, exec (.bvOfSize dst o) s = .next (s.writeVar dst (.vec v)) ∧ v.length = n ∧
      ∀ i, i < n → v[i]? = some false

/-- 40_bitvector.md R102 (20_memory.md R41, R43): BV_FROM_BYTES, code 0x8, completes with the buffer's bits, least
significant first within each byte, byte 0 first; any other bit order than little is refused. -/
def Obligations.BvFromBytesTakesBitsInLittleOrder : Prop :=
  ∀ (s : State) (dst : Nat) (o : BytesOperand) (buf : Bytes), readBytes o s.layout.OB s = .ok buf →
    opCode (.bvFromBytes dst o .little) = 0x8 ∧
    (∃ v : Bits, exec (.bvFromBytes dst o .little) s = .next (s.writeVar dst (.vec v)) ∧
      v.length = 8 * buf.length ∧
      ∀ i, i < 8 * buf.length → ∃ b : Byte, buf[i / 8]? = some b ∧ v[i]? = some (b.toNat.testBit (i % 8))) ∧
    ∀ n, exec (.bvFromBytes dst o (.other n)) s = .refused (.bitOrderNotLittle n)

/-- 40_bitvector.md R103: BV_GET, code 0xA, completes with element `i`, or raises IndexOutOfRange at or past the length. -/
def Obligations.BvGetReadsTheElementOrFaults : Prop :=
  ∀ (s : State) (dst i : Nat) (ov : VecOperand) (oi : NatOperand) (v : Bits),
    readVec ov s = .ok v → readNat oi s = .ok i →
    opCode (.bvGet dst ov oi) = 0xA ∧
    (∀ b, v[i]? = some b → exec (.bvGet dst ov oi) s = .next (s.writeVar dst (.bit b))) ∧
    (i ≥ v.length → exec (.bvGet dst ov oi) s = .fault (.indexOutOfRange i v.length))

/-- 40_bitvector.md R104: BV_SET, code 0xB, completes with its target holding the vector with element `i` replaced and the
others as they were, or raises IndexOutOfRange; a value that is no bit is refused. That such a value is refused before the
index is checked, so also for an index at or past the length, is the model's choice (log entry 15). -/
def Obligations.BvSetWritesTheElementOrFaults : Prop :=
  ∀ (s : State) (x i : Nat) (old : TargetOperand) (oi : NatOperand) (v : Bits),
    readVec (old.toVec x) s = .ok v → readNat oi s = .ok i →
    (∀ ob, opCode (.bvSet x old oi ob) = 0xB) ∧
    (∀ ob b, readBit ob s = .ok b → i < v.length →
      ∃ w : Bits, exec (.bvSet x old oi ob) s = .next (s.writeVar x (.vec w)) ∧
        w.length = v.length ∧ w[i]? = some b ∧ ∀ j, j ≠ i → w[j]? = v[j]?) ∧
    (∀ ob b, readBit ob s = .ok b → i ≥ v.length →
      exec (.bvSet x old oi ob) s = .fault (.indexOutOfRange i v.length)) ∧
    ∀ ob n, 2 ≤ n → (ob = .lit n ∨ ∃ y, ob = .var y ∧ s.readVar y = some (.nat n)) →
      exec (.bvSet x old oi ob) s = .refused (.notABit n)

/-- 40_bitvector.md R105: BV_SELECT_WHERE, code 0x6, completes with exactly the elements at the positions for which the
predicate holds, in ascending position order: paired with its position, each element of the operand is kept or dropped. -/
def Obligations.BvSelectWhereKeepsTheSelectedElements : Prop :=
  ∀ (s : State) (dst : Nat) (o : VecOperand) (pred : Pred) (v : Bits), readVec o s = .ok v →
    opCode (.bvSelectWhere dst o pred) = 0x6 ∧
    exec (.bvSelectWhere dst o pred) s = .next (s.writeVar dst (.vec
      ((v.zipIdx.filter fun bp => s.layout.holds pred bp.2).map Prod.fst)))

/-- 40_bitvector.md R106: BV_PAD_TO, code 0x7, completes with the vector followed by zeros up to length `n`; for `n` below
the length InvalidLength is the result and nothing is written. That this result is kept in a record under the line's number
and the machine goes on is the model's choice (log entry 8). -/
def Obligations.BvPadToExtendsWithZeros : Prop :=
  ∀ (s : State) (dst n : Nat) (ov : VecOperand) (o : NatOperand) (v : Bits),
    readVec ov s = .ok v → readNat o s = .ok n →
    opCode (.bvPadTo dst ov o) = 0x7 ∧
    (v.length ≤ n → ∃ w : Bits, exec (.bvPadTo dst ov o) s = .next (s.writeVar dst (.vec w)) ∧ w.length = n ∧
      (∀ i, i < v.length → w[i]? = v[i]?) ∧ ∀ i, v.length ≤ i → i < n → w[i]? = some false) ∧
    (n < v.length → exec (.bvPadTo dst ov o) s
      = .next { s with errors := s.errors ++ [(s.line, .invalidLength n v.length)] })

/-- 40_bitvector.md R107 and 60_exceptions.md R225: BV_XOR, code 0x4, completes with the element-wise exclusive or, or
raises LengthMismatch. -/
def Obligations.BvXorIsElementWiseOrFaults : Prop :=
  ∀ (s : State) (dst : Nat) (oa ob : VecOperand) (a b : Bits), readVec oa s = .ok a → readVec ob s = .ok b →
    opCode (.bvXor dst oa ob) = 0x4 ∧
    (a.length = b.length → ∃ x : Bits, exec (.bvXor dst oa ob) s = .next (s.writeVar dst (.vec x)) ∧
      x.length = a.length ∧ ∀ (i : Nat) (p q : Bool), a[i]? = some p → b[i]? = some q → x[i]? = some (p != q)) ∧
    (a.length ≠ b.length → exec (.bvXor dst oa ob) s = .fault (.lengthMismatch a.length b.length))

/-- 40_bitvector.md R108: BV_PARITY, code 0x5, completes with 1 when the number of set elements is odd, else 0. -/
def Obligations.BvParityIsOddPopcount : Prop :=
  ∀ (s : State) (dst : Nat) (o : VecOperand) (v : Bits), readVec o s = .ok v →
    opCode (.bvParity dst o) = 0x5 ∧
    exec (.bvParity dst o) s = .next (s.writeVar dst (.bit (decide (v.count true % 2 = 1))))

/-- 40_bitvector.md R109 and 20_memory.md R42: BV_TO_BYTES, code 0x9, completes with `ceil(n/8)` bytes; bit `b` of byte `j`
is element `8j + b`, and 0 past the last element. -/
def Obligations.BvToBytesPacksBitsInLittleOrder : Prop :=
  ∀ (s : State) (dst : Nat) (o : VecOperand) (v : Bits), readVec o s = .ok v →
    opCode (.bvToBytes dst o) = 0x9 ∧
    ∃ buf : Bytes, exec (.bvToBytes dst o) s = .next (s.writeVar dst (.bytes buf)) ∧
      v.length ≤ 8 * buf.length ∧ 8 * buf.length < v.length + 8 ∧
      ∀ (j : Nat) (byte : Byte), buf[j]? = some byte → ∀ b, b < 8 →
        byte.toNat.testBit b = (v[8 * j + b]?).getD false

/-- 40_bitvector.md R111: both round trips. -/
def Obligations.SerializationRoundTrips : Prop :=
  (∀ buf : Bytes, bvToBytes (bvFromBytes buf) = buf) ∧
  ∀ v : Bits, bvPadTo v (8 * ((v.length + 7) / 8)) = .ok (bvFromBytes (bvToBytes v))

/-- 40_bitvector.md R112: the four algebraic laws. -/
def Obligations.XorAndParityLaws : Prop :=
  (∀ a : Bits, bvXor a a = .ok (bvOfSize a.length)) ∧
  (∀ a b x : Bits, bvXor a b = .ok x → bvXor b a = .ok x) ∧
  (∀ a b c x y : Bits, bvXor a b = .ok x → bvXor x c = .ok y → ∃ z, bvXor b c = .ok z ∧ bvXor a z = .ok y) ∧
  (∀ a b x : Bits, bvXor a b = .ok x → bvParity x = xor (bvParity a) (bvParity b)) ∧
  ∀ (v w : Bits) (n : Nat), bvPadTo v n = .ok w → bvParity w = bvParity v

/-! ## ENCODE -/

/-- 41_encoder.md R140 to R144 with 30_encoding.md R62 and R64: ENCODE, code 0x1, of a block of `s` bytes completes with a
frame of `OB` bytes: data bit `DIDX(p)` at every DATA position `p`, at `2^i` the parity of the positions in `COVER(i)`, at
0 the parity of the positions above it, and zeros past the codeword. A block of another length gives InvalidLength and
writes nothing (R141); that this result is kept in a record under the line's number and the machine goes on is the model's
choice (log entry 8). -/
def Obligations.EncodeWritesTheCodeword : Prop :=
  ∀ (s : State) (dst : Nat) (o : BytesOperand) (m : Bytes), readBytes o s.layout.s s = .ok m →
    opCode (.encode dst o) = 0x1 ∧
    (s.layout.wf = true → m.length = s.layout.s →
      ∃ c : Bytes, exec (.encode dst o) s = .next (s.writeVar dst (.bytes c)) ∧ c.length = s.layout.OB ∧
        (∀ p, p < s.layout.T → isData p = true → bufBit c p = bufBit m (didx p)) ∧
        (∀ i, i < s.layout.k → bufBit c (2 ^ i) = oddOnes (s.layout.cover i) (bufBit c)) ∧
        bufBit c 0 = oddOnes ((List.range s.layout.T).drop 1) (bufBit c) ∧
        oddOnes (List.range s.layout.T) (bufBit c) = false ∧
        ∀ p, s.layout.T ≤ p → p < 8 * s.layout.OB → bufBit c p = false) ∧
    (m.length ≠ s.layout.s → exec (.encode dst o) s
      = .next { s with errors := s.errors ++ [(s.line, .invalidLength m.length s.layout.s)] })

/-- 41_encoder.md R148: ENCODE is linear, byte by byte, and the zero block gives the zero frame. -/
def Obligations.EncodeIsLinear : Prop :=
  ∀ L : Layout, L.wf = true →
    encodeBlock L (List.replicate L.s 0) = .ok (List.replicate L.OB 0) ∧
    ∀ m1 m2 c1 c2 : Bytes, encodeBlock L m1 = .ok c1 → encodeBlock L m2 = .ok c2 →
      encodeBlock L (bytesXor m1 m2) = .ok (bytesXor c1 c2)

/-- 41_encoder.md R146: group bit `i` in terms of the data bits alone. -/
def Obligations.GroupBitsAreParitiesOfDataBits : Prop :=
  ∀ (L : Layout) (m c : Bytes), L.wf = true → encodeBlock L m = .ok c → ∀ i, i < L.k →
    bufBit c (2 ^ i) = oddOnes (List.range L.d) fun j => bufBit m j && (L.dpos.getD j 0).testBit i

/-! ## SYNDROME -/

/-- 42_syndrome.md R160, R161 and R163: SYNDROME, code 0x3, of two vectors of `T` elements completes with
`syn[i] = r[2^i] xor f[2^i]` for every group, and the parity of the whole received vector. -/
def Obligations.SyndromeComparesTheGroups : Prop :=
  ∀ (s : State) (x y : Nat) (or of : VecOperand) (r f : Bits), s.layout.wf = true →
    readVec or s = .ok r → readVec of s = .ok f → r.length = s.layout.T → f.length = s.layout.T →
    opCode (.syndrome x y or of) = 0x3 ∧
    ∃ syn : Bits, exec (.syndrome x y or of) s
        = .next ((s.writeVar x (.vec syn)).writeVar y (.bit (decide (r.count true % 2 = 1)))) ∧
      syn.length = s.layout.k ∧
      ∀ (i : Nat) (p q : Bool), i < s.layout.k → r[2 ^ i]? = some p → f[2 ^ i]? = some q → syn[i]? = some (p != q)

/-- The model's choice (log entry 6): the operands of SYNDROME are vectors of `T` elements (42_syndrome.md R160 types them
so), and a vector of another length is refused, the received one first. -/
def Obligations.SyndromeRefusesOtherLengths : Prop :=
  ∀ (s : State) (x y : Nat) (or of : VecOperand) (r f : Bits), readVec or s = .ok r → readVec of s = .ok f →
    (r.length ≠ s.layout.T →
      exec (.syndrome x y or of) s = .refused (.notCodewordLength r.length s.layout.T)) ∧
    (r.length = s.layout.T → f.length ≠ s.layout.T →
      exec (.syndrome x y or of) s = .refused (.notCodewordLength f.length s.layout.T))

/-- 42_syndrome.md R165: for a codeword vector with the positions of `E` inverted, and the reference word made from its
data, the syndrome is the exclusive or of the positions and the global mismatch the parity of their number. -/
def Obligations.SyndromeIsTheXorOfErrorPositions : Prop :=
  ∀ (L : Layout) (D : Bits) (E : List Nat), L.wf = true → D.length = L.d → E.Nodup → (∀ p ∈ E, p < L.T) →
    ∃ syn : Bits,
      syndromeOf (flipVec (codeword L D) E)
        (codeword L (bvSelectWhere (flipVec (codeword L D) E) isData)) = .ok (syn, decide (E.length % 2 = 1)) ∧
      syn.length = L.k ∧ uint syn = positionsXor E

/-! ## DECODE -/

/-- 43_decoder.md R189 and 60_exceptions.md R227: for every frame of at least `OB` bytes, DECODE completes with `s` bytes of
data and a status. -/
def Obligations.DecodeAlwaysReturnsAResult : Prop :=
  ∀ (s : State) (x y : Nat) (o : BytesOperand) (c : Bytes), s.layout.wf = true →
    readBytes o s.layout.OB s = .ok c → c.length ≥ s.layout.OB →
    ∃ (m : Bytes) (st : DecodeStatus),
      exec (.decode x y o) s = .next ((s.writeVar x (.bytes m)).writeVar y (.status st)) ∧ m.length = s.layout.s

/-- 43_decoder.md R185 to R188, in terms of the received bits alone (42_syndrome.md R164(a)): the status is the decision
table's, with R187 for a syndrome at or past `T`; the data are the received DATA positions, with data bit `DIDX(n)`
inverted exactly when a DATA position `n` is corrected. -/
def Obligations.DecodeFollowsTheDecisionTable : Prop :=
  ∀ (s : State) (x y : Nat) (o : BytesOperand) (c : Bytes), s.layout.wf = true →
    readBytes o s.layout.OB s = .ok c → c.length ≥ s.layout.OB →
    ∀ (n : Nat) (g : Bool), n = receivedSyndrome s.layout (bufBit c) →
      g = oddOnes (List.range s.layout.T) (bufBit c) →
      ∃ (m : Bytes) (st : DecodeStatus),
        exec (.decode x y o) s = .next ((s.writeVar x (.bytes m)).writeVar y (.status st)) ∧
        (n = 0 → g = false → st = .noError) ∧
        (n ≠ 0 → g = true → n < s.layout.T → st = .singleErrorCorrected) ∧
        (n ≠ 0 → g = true → n ≥ s.layout.T → st = .doubleErrorDetected) ∧
        (n ≠ 0 → g = false → st = .doubleErrorDetected) ∧
        (n = 0 → g = true → st = .doubleErrorDetected) ∧
        m.length = s.layout.s ∧
        ∀ j p, s.layout.dpos[j]? = some p →
          bufBit m j = xor (bufBit c p) (decide (st = .singleErrorCorrected ∧ p = n))

/-- 30_encoding.md R63: two frames of at least `OB` bytes with the same codeword positions decode alike: padding bits and
trailing bytes are ignored. -/
def Obligations.DecodeIgnoresPaddingAndTrailingBytes : Prop :=
  ∀ (s : State) (x y : Nat) (o1 o2 : BytesOperand) (c1 c2 : Bytes), s.layout.wf = true →
    readBytes o1 s.layout.OB s = .ok c1 → readBytes o2 s.layout.OB s = .ok c2 →
    c1.length ≥ s.layout.OB → c2.length ≥ s.layout.OB →
    (∀ p, p < s.layout.T → bufBit c1 p = bufBit c2 p) →
    exec (.decode x y o1) s = exec (.decode x y o2) s

/-- 43_decoder.md R192, first row: with no flip on a codeword position, DECODE returns the encoded data and NoError. -/
def Obligations.DecodeReturnsWhatWasEncoded : Prop :=
  ∀ (s : State) (x y : Nat) (o : BytesOperand) (m c : Bytes) (E : List Nat), s.layout.wf = true →
    encodeBlock s.layout m = .ok c → (∀ p ∈ E, s.layout.T ≤ p) →
    readBytes o s.layout.OB s = .ok (flipFrame c E) →
    exec (.decode x y o) s = .next ((s.writeVar x (.bytes m)).writeVar y (.status .noError))

/-- 43_decoder.md R192, second row: a flip of any one position from 1 on (and any of the padding) is corrected. -/
def Obligations.DecodeCorrectsEverySingleError : Prop :=
  ∀ (s : State) (x y : Nat) (o : BytesOperand) (m c : Bytes) (E : List Nat) (p : Nat), s.layout.wf = true →
    encodeBlock s.layout m = .ok c → 1 ≤ p → E.filter (· < s.layout.T) = [p] →
    readBytes o s.layout.OB s = .ok (flipFrame c E) →
    exec (.decode x y o) s = .next ((s.writeVar x (.bytes m)).writeVar y (.status .singleErrorCorrected))

/-- 43_decoder.md R194 (R192, third row): a flip of position 0 alone is reported as DoubleErrorDetected, with the data
intact. -/
def Obligations.DecodeReportsAFlipOfTheGlobalBit : Prop :=
  ∀ (s : State) (x y : Nat) (o : BytesOperand) (m c : Bytes), s.layout.wf = true →
    encodeBlock s.layout m = .ok c → readBytes o s.layout.OB s = .ok (flipFrame c [0]) →
    exec (.decode x y o) s = .next ((s.writeVar x (.bytes m)).writeVar y (.status .doubleErrorDetected))

/-- 43_decoder.md R192, fourth row: two flips on codeword positions are always detected; the data returned are those of the
received word, which are the encoded ones when neither flip is on a DATA position. -/
def Obligations.DecodeDetectsEveryDoubleError : Prop :=
  ∀ (s : State) (x y : Nat) (o : BytesOperand) (m c : Bytes) (E : List Nat) (p q : Nat), s.layout.wf = true →
    encodeBlock s.layout m = .ok c → p ≠ q → E.filter (· < s.layout.T) = [p, q] →
    readBytes o s.layout.OB s = .ok (flipFrame c E) →
    ∃ cand : Bytes,
      exec (.decode x y o) s = .next ((s.writeVar x (.bytes cand)).writeVar y (.status .doubleErrorDetected)) ∧
      cand.length = s.layout.s ∧
      (∀ j a, s.layout.dpos[j]? = some a → bufBit cand j = xor (bufBit m j) (decide (a = p ∨ a = q))) ∧
      (isData p = false → isData q = false → cand = m)

/-- 43_decoder.md R192, last two rows: for three or more flips on codeword positions the status follows the exclusive or of
the positions and the parity of their number; with an even number and the exclusive or 0 the error is not seen at all. -/
def Obligations.DecodeOfThreeOrMoreErrors : Prop :=
  ∀ (s : State) (x y : Nat) (o : BytesOperand) (m c : Bytes) (E E' : List Nat), s.layout.wf = true →
    encodeBlock s.layout m = .ok c → E' = E.filter (· < s.layout.T) → E'.Nodup → 3 ≤ E'.length →
    readBytes o s.layout.OB s = .ok (flipFrame c E) →
    ∃ (d : Bytes) (st : DecodeStatus),
      exec (.decode x y o) s = .next ((s.writeVar x (.bytes d)).writeVar y (.status st)) ∧
      (E'.length % 2 = 1 → (positionsXor E' = 0 ∨ positionsXor E' ≥ s.layout.T) → st = .doubleErrorDetected) ∧
      (E'.length % 2 = 1 → positionsXor E' ≠ 0 → positionsXor E' < s.layout.T → st = .singleErrorCorrected) ∧
      (E'.length % 2 = 0 → positionsXor E' = 0 → st = .noError) ∧
      (E'.length % 2 = 0 → positionsXor E' ≠ 0 → st = .doubleErrorDetected)

/-- 43_decoder.md R193: its two examples of miscorrection, with `s = 1` and the block 0x74. -/
def Obligations.DecodeCanMiscorrect : Prop :=
  encodeBlock (layoutOf 1) [0x74] = .ok [0x55, 0x0F] ∧
  flipFrame [0x55, 0x0F] [1, 2, 4] = [0x43, 0x0F] ∧
  receivedSyndrome (layoutOf 1) (bufBit [0x43, 0x0F]) = 7 ∧ oddOnes (List.range 13) (bufBit [0x43, 0x0F]) = true ∧
  decodeFrame (layoutOf 1) [0x43, 0x0F] = .ok ([0x7C], .singleErrorCorrected) ∧
  flipFrame [0x55, 0x0F] [1, 2, 4, 7] = [0xC3, 0x0F] ∧
  receivedSyndrome (layoutOf 1) (bufBit [0xC3, 0x0F]) = 0 ∧ oddOnes (List.range 13) (bufBit [0xC3, 0x0F]) = false ∧
  decodeFrame (layoutOf 1) [0xC3, 0x0F] = .ok ([0x7C], .noError)

/-- 30_encoding.md R67 and R68: the codes of the three statuses; 11 is no status's code. -/
def Obligations.StatusCodesLeaveOutTheReservedOne : Prop :=
  DecodeStatus.noError.code = 0b00 ∧ DecodeStatus.singleErrorCorrected.code = 0b01 ∧
  DecodeStatus.doubleErrorDetected.code = 0b10 ∧ ∀ st : DecodeStatus, st.code ≠ 0b11

/-! ## Errors -/

/-- 60_exceptions.md R223: InvalidLength is raised by ENCODE for any length other than `s`, by DECODE below `OB` and by
BV_PAD_TO for a target shorter than the vector; it is an error result with no data (R228). That it is kept in a record
under the line's number and the machine goes on is the model's choice (log entry 8, unsafe). -/
def Obligations.InvalidLengthIsAnErrorResult : Prop :=
  ∀ s : State,
    (∀ dst o m, readBytes o s.layout.s s = .ok m → m.length ≠ s.layout.s →
      exec (.encode dst o) s
        = .next { s with errors := s.errors ++ [(s.line, .invalidLength m.length s.layout.s)] }) ∧
    (∀ x y o c, readBytes o s.layout.OB s = .ok c → c.length < s.layout.OB →
      exec (.decode x y o) s
        = .next { s with errors := s.errors ++ [(s.line, .invalidLength c.length s.layout.OB)] }) ∧
    ∀ dst ov o v n, readVec ov s = .ok v → readNat o s = .ok n → n < v.length →
      exec (.bvPadTo dst ov o) s
        = .next { s with errors := s.errors ++ [(s.line, .invalidLength n v.length)] }

/-- 60_exceptions.md R224, R225 and R228: the only faults are IndexOutOfRange of BV_GET and BV_SET, for an index at or past
the length, and LengthMismatch of BV_XOR, for two lengths that differ; no fault can be reached from ENCODE, DECODE or
SYNDROME, nor from any other operation. -/
def Obligations.FaultsComeOnlyFromDirectBitVectorCalls : Prop :=
  ∀ (i : Instr) (s : State) (e : Fault), s.layout.wf = true → exec i s = .fault e →
    (∃ k n, e = .indexOutOfRange k n ∧ k ≥ n ∧
      ((∃ dst v o, i = .bvGet dst v o) ∨ ∃ x old o b, i = .bvSet x old o b)) ∨
    ∃ a b, e = .lengthMismatch a b ∧ a ≠ b ∧ ∃ dst u v, i = .bvXor dst u v

/-- 60_exceptions.md R221: an operation that returns an error changes no program variable and nothing else. That the error
is kept in a record under the line's number, and the machine goes on, is the model's choice (log entry 8). -/
def Obligations.AnErrorHasNoOtherEffect : Prop :=
  ∀ (i : Instr) (s t : State), exec i s = .next t → t.errors ≠ s.errors →
    ∃ given required : Nat,
      t = { s with errors := s.errors ++ [(s.line, .invalidLength given required)] }

/-! ## Frames and whole-machine rules -/

/-- 20_memory.md R48 and 40_bitvector.md R100: the frame of every operation. It writes no program variable but its own
results; the layout stays, but for LAYOUT, which writes no variable; the lines still to run and the line number stay. The
record of errors, to which at most one error is added, under the line's number, is the model's choice (log entry 8). -/
def Obligations.OperationsWriteOnlyTheirResults : Prop :=
  ∀ (i : Instr) (s t : State), exec i s = .next t →
    (∀ x, x ∉ i.dests → t.readVar x = s.readVar x) ∧ t.program = s.program ∧ t.line = s.line ∧
    (t.errors = s.errors ∨ ∃ e, t.errors = s.errors ++ [(s.line, e)]) ∧
    ((∀ size, i ≠ .layout size) → t.layout = s.layout) ∧
    (∀ size, i = .layout size → t.vars = s.vars)

/-- 10_state.md R20: the layout does not change while the block operates: no step but one that runs LAYOUT changes it. That
a LAYOUT line changes it, wherever it stands, is the model's choice (log entry 3). -/
def Obligations.OnlyLayoutChangesTheLayout : Prop :=
  ∀ s t : State, step s = .next t → t.layout ≠ s.layout →
    ∃ (size : SizeOperand) (rest : Bytes), decodeInstr s.program = .ok (.layout size, rest)

/-- The invariant holds after reset. The state after reset is in part the model's own: the record of errors and the line
number are its choice (log entry 8, unsafe), and the layout of `s = 1` its inference (log entry 9, unsafe); so is the store
of program variables in a canonical form (log entry 1 numbers the names). -/
def Obligations.ResetIsAGoodState : Prop := Inv State.reset

/-- Every step keeps the invariant: the layout is one that LAYOUT returns (10_state.md R20, R30), the store of program
variables is canonical, and the errors recorded are InvalidLength alone (60_exceptions.md R228: no other kind is an error
result). That there is a record of errors, under rising line numbers, is the model's choice (log entry 8), and so is the
form of the store. -/
def Obligations.StepKeepsTheInvariant : Prop :=
  ∀ s t : State, Inv s → step s = .next t → Inv t

/-- 20_memory.md R53 and R50: the result of an operation depends only on the layout and on the variables it reads. In two
states that agree on these it faults or is refused alike; and where it goes on, either its results are the same or it
returns the same error. That an error is kept in a record under the line's number, and the machine goes on, is the model's
choice (log entry 8). -/
def Obligations.ResultsDependOnlyOnTheOperands : Prop :=
  ∀ (i : Instr) (s1 s2 : State), s1.layout = s2.layout → (∀ x ∈ i.sources, s1.readVar x = s2.readVar x) →
    (∀ e, exec i s1 = .fault e → exec i s2 = .fault e) ∧
    (∀ r, exec i s1 = .refused r → exec i s2 = .refused r) ∧
    ∀ t1, exec i s1 = .next t1 → ∃ t2, exec i s2 = .next t2 ∧ t1.layout = t2.layout ∧
      ((t1.errors = s1.errors ∧ t2.errors = s2.errors ∧ ∀ x ∈ i.dests, t1.readVar x = t2.readVar x) ∨
        ∃ e, t1.errors = s1.errors ++ [(s1.line, e)] ∧ t2.errors = s2.errors ++ [(s2.line, e)])

/-- 20_memory.md R50: two operations of which neither is LAYOUT, neither reads or writes what the other writes, and neither
returns an error (nothing is added to the model's record of them, log entry 8), may be evaluated in either order, with the
same state at the end. -/
def Obligations.IndependentOperationsCommute : Prop :=
  ∀ (i j : Instr) (s t u : State), varsWf s.vars = true →
    (∀ size, i ≠ .layout size) → (∀ size, j ≠ .layout size) →
    (∀ x ∈ i.dests, x ∉ j.dests ∧ x ∉ j.sources) → (∀ x ∈ j.dests, x ∉ i.sources) →
    exec i s = .next t → exec j t = .next u → u.errors = s.errors →
    ∃ t', exec j s = .next t' ∧ exec i t' = .next u

/-- 20_memory.md R48: every operation that does not write what it reads, and returns no error (nothing is added to the
model's record of them, log entry 8), is idempotent: done again, it changes nothing. -/
def Obligations.OperationsAreIdempotent : Prop :=
  ∀ (i : Instr) (s t : State), varsWf s.vars = true → i.wellFormed = true → (∀ x ∈ i.dests, x ∉ i.sources) →
    exec i s = .next t → t.errors = s.errors → exec i t = .next t

/-! ## The units -/

/-- 40_bitvector.md R110: `bitvector_parity_xor` at width `N` gives BV_XOR and BV_PARITY of its operands' vectors. -/
def Obligations.ParityXorUnitGivesXorAndParity : Prop :=
  ∀ (N : Nat) (a b : BitVec N),
    bvXor (busBits a) (busBits b) = .ok (busBits (parityXorUnit a b).x) ∧
    bvParity (busBits a) = (parityXorUnit a b).parityA

/-- 42_syndrome.md R166: `syndrome_compute_unit` drives SYNDROME of its two ports, with `syndrome[i] = syn[i]`. -/
def Obligations.SyndromeUnitDrivesSyndrome : Prop :=
  ∀ (L : Layout) (received reference : BitVec L.T), L.wf = true →
    syndromeOf (busBits received) (busBits reference)
      = .ok (busBits (syndromeUnit L received reference).syndrome,
          (syndromeUnit L received reference).globalMismatch)

/-- 41_encoder.md R145: `hamming_secded_encoder` drives `code_out = ENCODE(data_in)` for every value of `data_in`. -/
def Obligations.EncoderUnitDrivesEncode : Prop :=
  ∀ (L : Layout) (dataIn : BitVec (8 * L.s)), L.wf = true →
    encodeBlock L (busBytes dataIn) = .ok (busBytes (encoderUnit L dataIn))

/-- 43_decoder.md R191: `hamming_secded_decoder` drives `(data_out, status) = DECODE(code_in)` for every value of `code_in`,
the status by its code. -/
def Obligations.DecoderUnitDrivesDecode : Prop :=
  ∀ (L : Layout) (codeIn : BitVec (8 * L.OB)), L.wf = true →
    ∃ st : DecodeStatus,
      decodeFrame L (busBytes codeIn) = .ok (busBytes (decoderUnit L codeIn).dataOut, st) ∧
      st.code = (decoderUnit L codeIn).status
end

