-- ==== Sys2Proof/Laws/BitVector.lean ====
section
/-! SUPPORT. What the BitVector functions answer: lengths, elements and the integer of a vector. -/

namespace Sys2Proof.Machine

/-! ## uint -/

@[simp] theorem uint_nil : uint [] = 0 := rfl

@[simp] theorem uint_cons (b : Bool) (v : Bits) : uint (b :: v) = b.toNat + 2 * uint v := rfl

theorem uint_lt (v : Bits) : uint v < 2 ^ v.length := by
  induction v with
  | nil => simp
  | cons b v ih =>
    have := Bool.toNat_lt b
    simp only [uint_cons, List.length_cons, pow_succ]
    omega

/-- Bit `i` of the integer of a vector is its element `i`. -/
theorem testBit_uint (v : Bits) (i : Nat) : (uint v).testBit i = v.getD i false := by
  induction v generalizing i with
  | nil => simp
  | cons b v ih =>
    have hb : uint (b :: v) = Nat.bit b (uint v) := by
      cases b <;> simp [Nat.bit, Nat.add_comm]
    cases i with
    | zero => rw [hb, Nat.testBit_bit_zero]; simp
    | succ i => rw [hb, Nat.testBit_bit_succ, ih]; simp

/-- Two vectors of one length with the same integer are equal. -/
theorem uint_injective {v w : Bits} (hl : v.length = w.length) (h : uint v = uint w) : v = w := by
  refine List.ext_getElem hl fun i h1 h2 => ?_
  have := congrArg (fun n => n.testBit i) h
  simpa [testBit_uint, List.getD_eq_getElem, h1, h2] using this

/-! ## Elements -/

theorem elem_eq_getElem {v : Bits} {i : Nat} (h : i < v.length) : elem v i = v[i] := by
  simp [elem, h]

@[simp] theorem bvOfSize_length (n : Nat) : (bvOfSize n).length = n := by simp [bvOfSize]

theorem bvOfSize_getElem? {n i : Nat} (h : i < n) : (bvOfSize n)[i]? = some false := by
  simp [bvOfSize, h]

@[simp] theorem bvFromBytes_length (buf : Bytes) : (bvFromBytes buf).length = 8 * buf.length := by
  simp [bvFromBytes]

/-- Element `i` of a parsed buffer is bit `i` of the buffer in the little order. -/
theorem bvFromBytes_getElem? {buf : Bytes} {i : Nat} (h : i < 8 * buf.length) :
    (bvFromBytes buf)[i]? = some (Safety.bufBit buf i) := by
  simp [bvFromBytes, h, Safety.bufBit]

theorem elem_bvFromBytes {buf : Bytes} {i : Nat} (h : i < 8 * buf.length) :
    elem (bvFromBytes buf) i = Safety.bufBit buf i := by
  simp [elem, List.getD_eq_getElem?_getD, bvFromBytes_getElem? h]

/-- BV_GET answers the element, or raises at or past the length. -/
theorem bvGet_eq (v : Bits) (i : Nat) :
    bvGet v i = if h : i < v.length then .ok v[i] else .error (.indexOutOfRange i v.length) := by
  by_cases h : i < v.length
  · simp [bvGet, elem, h, Nat.not_le.2 h]
  · simp [bvGet, h, Nat.not_lt.1 h]

/-- BV_SET answers the updated vector, or raises at or past the length. -/
theorem bvSet_eq (v : Bits) (i : Nat) (b : Bool) :
    bvSet v i b = if i < v.length then .ok (v.set i b) else .error (.indexOutOfRange i v.length) := by
  by_cases h : i < v.length
  · simp [bvSet, h, Nat.not_le.2 h]
  · simp [bvSet, h, Nat.not_lt.1 h]

/-- BV_SELECT_WHERE takes as many elements as there are selected positions. -/
theorem bvSelectWhere_length (v : Bits) (pred : Nat → Bool) :
    (bvSelectWhere v pred).length = ((List.range v.length).filter pred).length := by
  simp [bvSelectWhere]

/-- BV_PAD_TO on a target that is long enough. -/
theorem bvPadTo_of_le {v : Bits} {n : Nat} (h : v.length ≤ n) :
    bvPadTo v n = .ok (v ++ List.replicate (n - v.length) false) := by
  simp [bvPadTo, Nat.not_lt.2 h]

/-- BV_PAD_TO to the vector's own length is the vector. -/
@[simp] theorem bvPadTo_self (v : Bits) : bvPadTo v v.length = .ok v := by
  simp [bvPadTo]

/-- BV_XOR on vectors of one length. -/
theorem bvXor_of_length {a b : Bits} (h : a.length = b.length) : bvXor a b = .ok (List.zipWith xor a b) := by
  simp [bvXor, h]

/-! ## Parity -/

theorem foldl_xor_acc (v : Bits) (a : Bool) : v.foldl xor a = xor a (v.foldl xor false) := by
  induction v generalizing a with
  | nil => simp
  | cons b v ih => rw [List.foldl_cons, ih, List.foldl_cons, ih (xor false b)]; simp

@[simp] theorem bvParity_nil : bvParity [] = false := rfl

@[simp] theorem bvParity_cons (b : Bool) (v : Bits) : bvParity (b :: v) = xor b (bvParity v) := by
  unfold bvParity
  rw [List.foldl_cons, foldl_xor_acc]
  simp

@[simp] theorem bvParity_append (v w : Bits) : bvParity (v ++ w) = xor (bvParity v) (bvParity w) := by
  induction v with
  | nil => simp
  | cons b v ih => simp [ih]

/-- The parity of the bits at given positions says whether an odd number of them hold a 1. -/
theorem bvParity_map (ps : List Nat) (bit : Nat → Bool) : bvParity (ps.map bit) = Safety.oddOnes ps bit := by
  induction ps with
  | nil => rfl
  | cons p ps ih =>
    rw [List.map_cons, bvParity_cons, ih]
    cases hb : bit p
    · simp [Safety.oddOnes, hb]
    · simp only [Safety.oddOnes, List.filter_cons, hb, if_true, List.length_cons, Bool.true_xor]
      rcases Nat.mod_two_eq_zero_or_one (List.filter bit ps).length with h | h <;> simp [h, Nat.add_mod]

/-! ## Serializing -/

@[simp] theorem bvToBytes_length (v : Bits) : (bvToBytes v).length = (v.length + 7) / 8 := by
  simp [bvToBytes]

/-- Bit `8*j + b` of the serialized buffer is element `8*j + b`, and 0 past the last element. -/
theorem bufBit_bvToBytes (v : Bits) (i : Nat) : Safety.bufBit (bvToBytes v) i = v.getD i false := by
  have hmod : i % 8 < 8 := Nat.mod_lt _ (by decide)
  by_cases hj : i / 8 < (v.length + 7) / 8
  · have hget : (bvToBytes v).getD (i / 8) 0 = BitVec.ofNat 8 (uint ((v.drop (8 * (i / 8))).take 8)) := by
      simp [bvToBytes, List.getD_eq_getElem?_getD, hj]
    rw [Safety.bufBit, hget, BitVec.getLsbD_ofNat, testBit_uint]
    simp only [hmod, decide_true, Bool.true_and, List.getD_eq_getElem?_getD, List.getElem?_take,
      List.getElem?_drop, if_true]
    rw [Nat.div_add_mod]
  · have hlen : v.length ≤ i := by omega
    have hnone : (bvToBytes v)[i / 8]? = none := by
      rw [List.getElem?_eq_none_iff, bvToBytes_length]; omega
    simp [Safety.bufBit, List.getD_eq_getElem?_getD, hnone, List.getElem?_eq_none_iff.2 hlen]

end Sys2Proof.Machine
end

