-- ==== Sys2Proof/Laws/Layout.lean ====
section
/-! SUPPORT. The sizes, roles and index sets of a layout. -/

namespace Sys2Proof.Machine

/-! ## Powers of two -/

theorem isPow2_two_pow (i : Nat) : isPow2 (2 ^ i) = true := by
  simp [isPow2, Nat.and_two_pow_sub_one_eq_mod]

theorem isPow2_iff (p : Nat) : isPow2 p = true ↔ ∃ i, p = 2 ^ i := by
  constructor
  · intro h
    simp only [isPow2, Bool.and_eq_true, decide_eq_true_eq] at h
    obtain ⟨i, hi⟩ := (Nat.and_sub_one_eq_zero_iff_isPowerOfTwo (by omega)).1 h.2
    exact ⟨i, hi⟩
  · rintro ⟨i, rfl⟩
    exact isPow2_two_pow i

@[simp] theorem isData_two_pow (i : Nat) : isData (2 ^ i) = false := by simp [isData, isPow2_two_pow]

@[simp] theorem isData_zero : isData 0 = false := by decide

theorem isData_iff (p : Nat) : isData p = true ↔ 0 < p ∧ ∀ i, p ≠ 2 ^ i := by
  simp [isData, isPow2_iff, ← Bool.not_eq_true]

/-! ## The number of parity bits -/

/-- With enough fuel the loop of R22 ends at a number that meets its condition, and every smaller one from the start
on does not. -/
theorem parityBitsFrom_spec (d fuel k : Nat) (h : d + (k + fuel) + 1 ≤ 2 ^ (k + fuel)) :
    d + parityBitsFrom d fuel k + 1 ≤ 2 ^ parityBitsFrom d fuel k ∧
      ∀ j, k ≤ j → j < parityBitsFrom d fuel k → 2 ^ j < d + j + 1 := by
  induction fuel generalizing k with
  | zero => exact ⟨by simpa [parityBitsFrom] using h, fun j h1 h2 => absurd h2 (by simpa [parityBitsFrom] using h1)⟩
  | succ fuel ih =>
    by_cases hk : 2 ^ k < d + k + 1
    · have step := ih (k + 1) (by rw [Nat.add_right_comm k 1 fuel]; exact h)
      simp only [parityBitsFrom, hk, if_true]
      refine ⟨step.1, fun j h1 h2 => ?_⟩
      rcases Nat.eq_or_lt_of_le h1 with rfl | h1
      · exact hk
      · exact step.2 j h1 h2
    · simp only [parityBitsFrom, hk, if_false]
      exact ⟨Nat.not_lt.1 hk, fun j h1 h2 => absurd h2 (Nat.not_lt.2 h1)⟩

theorem enough_fuel (d : Nat) : d + (0 + (d + 1)) + 1 ≤ 2 ^ (0 + (d + 1)) := by
  induction d with
  | zero => decide
  | succ d ih => rw [Nat.zero_add, pow_succ]; rw [Nat.zero_add] at ih; omega

/-- `2^k` is large enough for `d` data bits. -/
theorem parityBits_enough (d : Nat) : d + parityBits d + 1 ≤ 2 ^ parityBits d :=
  (parityBitsFrom_spec d (d + 1) 0 (enough_fuel d)).1

/-- No smaller number of parity bits is. -/
theorem parityBits_least (d j : Nat) (h : j < parityBits d) : 2 ^ j < d + j + 1 :=
  (parityBitsFrom_spec d (d + 1) 0 (enough_fuel d)).2 j (Nat.zero_le j) h

/-! ## Well-formed layouts -/

theorem Layout.wf_iff (L : Layout) : L.wf = true ↔ 1 ≤ L.s ∧ L = layoutOf L.s := by simp [Layout.wf]

theorem layoutOf_wf {n : Nat} (h : 1 ≤ n) : (layoutOf n).wf = true := by
  rw [Layout.wf_iff]; exact ⟨h, rfl⟩

variable {L : Layout}

theorem wf_d (h : L.wf = true) : L.d = 8 * L.s := by
  obtain ⟨_, h⟩ := L.wf_iff.1 h
  exact (congrArg Layout.d h).trans rfl

theorem wf_k (h : L.wf = true) : L.k = parityBits L.d := by
  obtain ⟨_, h'⟩ := L.wf_iff.1 h
  rw [wf_d h]
  exact (congrArg Layout.k h').trans rfl

theorem wf_T (h : L.wf = true) : L.T = L.d + L.k + 1 := by
  obtain ⟨_, h'⟩ := L.wf_iff.1 h
  rw [wf_k h, wf_d h]
  exact (congrArg Layout.T h').trans rfl

theorem wf_OB (h : L.wf = true) : L.OB = (L.T + 7) / 8 := by
  obtain ⟨_, h'⟩ := L.wf_iff.1 h
  rw [wf_T h, wf_k h, wf_d h]
  exact (congrArg Layout.OB h').trans rfl

theorem wf_d_pos (h : L.wf = true) : 8 ≤ L.d := by
  have := (L.wf_iff.1 h).1
  rw [wf_d h]; omega

/-- The word ends at or below `2^k`. -/
theorem wf_T_le (h : L.wf = true) : L.T ≤ 2 ^ L.k := by
  rw [wf_T h, wf_k h]; exact parityBits_enough L.d

/-- Every group position is a position of the word. -/
theorem wf_group_lt (h : L.wf = true) {i : Nat} (hi : i < L.k) : 2 ^ i < L.T := by
  have hk := wf_k h
  have hT := wf_T h
  have hlast : 2 ^ (L.k - 1) < L.d + (L.k - 1) + 1 := parityBits_least L.d (L.k - 1) (by omega)
  have hmono : 2 ^ i ≤ 2 ^ (L.k - 1) := Nat.pow_le_pow_right (by decide) (by omega)
  omega

/-- A group position of the word has an index below `k`. -/
theorem wf_group_index (h : L.wf = true) {i : Nat} (hi : 2 ^ i < L.T) : i < L.k :=
  (Nat.pow_lt_pow_iff_right (by decide)).1 (hi.trans_le (wf_T_le h))

theorem mem_cover (L : Layout) (i p : Nat) : p ∈ L.cover i ↔ p < L.T ∧ isData p = true ∧ p.testBit i = true := by
  simp only [Layout.cover, isData, List.mem_filter, List.mem_range, Bool.and_eq_true, decide_eq_true_eq]
  constructor <;> rintro ⟨h1, h2⟩ <;> refine ⟨h1, ?_⟩ <;> tauto

/-- For an `i` that is no group index there is no position to cover (log entry 21). -/
theorem cover_eq_nil (h : L.wf = true) {i : Nat} (hi : L.k ≤ i) : L.cover i = [] := by
  refine List.eq_nil_iff_forall_not_mem.2 fun p hp => ?_
  obtain ⟨hT, _, hbit⟩ := (mem_cover L i p).1 hp
  have hlt : p < 2 ^ i := (hT.trans_le (wf_T_le h)).trans_le (Nat.pow_le_pow_right (by decide) hi)
  simp [Nat.testBit_lt_two_pow hlt] at hbit

theorem mem_dpos (L : Layout) (p : Nat) : p ∈ L.dpos ↔ p < L.T ∧ isData p = true := by
  simp [Layout.dpos]

theorem dpos_nodup (L : Layout) : L.dpos.Nodup := List.nodup_range.filter _

end Sys2Proof.Machine
end

