-- ==== Sys2Proof/Laws/Codec.lean ====
section
/-! SUPPORT. The codeword that ENCODE builds, position by position, and the lengths of what the codec answers. -/

namespace Sys2Proof.Machine

/-! ## Writing several positions -/

theorem foldl_set_length (ps : List (Nat × Bool)) (w : Bits) :
    (ps.foldl (fun w pb => w.set pb.1 pb.2) w).length = w.length := by
  induction ps generalizing w with
  | nil => rfl
  | cons pb ps ih => simp [ih]

theorem elem_set (w : Bits) (p q : Nat) (b : Bool) :
    elem (w.set p b) q = if p = q ∧ p < w.length then b else elem w q := by
  simp only [elem, List.getD_eq_getElem?_getD, List.getElem?_set]
  by_cases h : p = q
  · subst h
    by_cases hl : p < w.length
    · simp [hl]
    · simp [hl]
  · simp [h]

theorem elem_foldl_set_other (ps : List (Nat × Bool)) (w : Bits) (q : Nat) (h : q ∉ ps.map Prod.fst) :
    elem (ps.foldl (fun w pb => w.set pb.1 pb.2) w) q = elem w q := by
  induction ps generalizing w with
  | nil => rfl
  | cons pb ps ih =>
    simp only [List.map_cons, List.mem_cons, not_or] at h
    rw [List.foldl_cons, ih _ h.2, elem_set, if_neg (fun hc => h.1 hc.1.symm)]

theorem elem_foldl_set_mem (ps : List (Nat × Bool)) (w : Bits) (q : Nat) (b : Bool)
    (hnd : (ps.map Prod.fst).Nodup) (hm : (q, b) ∈ ps) (hq : q < w.length) :
    elem (ps.foldl (fun w pb => w.set pb.1 pb.2) w) q = b := by
  induction ps generalizing w with
  | nil => simp at hm
  | cons pb ps ih =>
    simp only [List.map_cons, List.nodup_cons] at hnd
    rw [List.foldl_cons]
    rcases List.mem_cons.1 hm with rfl | hm
    · rw [elem_foldl_set_other _ _ _ hnd.1, elem_set]; simp [hq]
    · exact ih _ hnd.2 hm (by simpa using hq)

/-! ## The steps of ENCODE -/

@[simp] theorem placeData_length (L : Layout) (D w : Bits) : (placeData L D w).length = w.length :=
  foldl_set_length _ w

/-- The data bit `j` stands at the `j`-th DATA position. -/
theorem elem_placeData {L : Layout} {D w : Bits} (hD : D.length = L.dpos.length) (hw : w.length = L.T) {j : Nat}
    (hj : j < L.dpos.length) : elem (placeData L D w) L.dpos[j] = D[j]'(hD ▸ hj) := by
  refine elem_foldl_set_mem _ _ _ _ ?_ ?_ ?_
  · rw [List.map_fst_zip (by omega)]
    exact dpos_nodup L
  · have hz : j < (L.dpos.zip D).length := by simp [hD, hj]
    have := List.getElem_mem hz
    rwa [List.getElem_zip] at this
  · rw [hw]
    exact ((mem_dpos L _).1 (List.getElem_mem hj)).1

/-- No other position is written by it. -/
theorem elem_placeData_other {L : Layout} {D w : Bits} {p : Nat} (hp : isData p = false) :
    elem (placeData L D w) p = elem w p := by
  refine elem_foldl_set_other _ _ _ fun h => ?_
  obtain ⟨⟨q, b⟩, hm, rfl⟩ := List.mem_map.1 h
  simp [((mem_dpos L q).1 (List.of_mem_zip hm).1).2] at hp

/-- A parity over a cover reads DATA positions only. -/
theorem coverParity_congr {L : Layout} {v w : Bits} (h : ∀ p, isData p = true → elem v p = elem w p) (i : Nat) :
    coverParity L v i = coverParity L w i := by
  unfold coverParity
  congr 1
  exact List.map_congr_left fun p hp => h p ((mem_cover L i p).1 hp).2.1

/-- Writing some of the group bits, each the parity over its cover. -/
def setGroups (L : Layout) (is : List Nat) (w : Bits) : Bits :=
  is.foldl (fun w i => w.set (2 ^ i) (coverParity L w i)) w

theorem setGroups_length (L : Layout) (is : List Nat) (w : Bits) : (setGroups L is w).length = w.length := by
  induction is generalizing w with
  | nil => rfl
  | cons i is ih => simpa [setGroups] using ih (w.set (2 ^ i) (coverParity L w i))

theorem elem_setGroups_other (L : Layout) (is : List Nat) (w : Bits) (p : Nat) (hp : ∀ i ∈ is, p ≠ 2 ^ i) :
    elem (setGroups L is w) p = elem w p := by
  induction is generalizing w with
  | nil => rfl
  | cons i is ih =>
    have step : setGroups L (i :: is) w = setGroups L is (w.set (2 ^ i) (coverParity L w i)) := rfl
    rw [step, ih _ fun j hj => hp j (List.mem_cons_of_mem _ hj), elem_set,
      if_neg fun hc => hp i List.mem_cons_self hc.1.symm]

theorem elem_setGroups (L : Layout) (is : List Nat) (w : Bits) {i : Nat} (hi : i ∈ is) (hnd : is.Nodup)
    (hlt : 2 ^ i < w.length) : elem (setGroups L is w) (2 ^ i) = coverParity L w i := by
  induction is generalizing w with
  | nil => simp at hi
  | cons j is ih =>
    have step : setGroups L (j :: is) w = setGroups L is (w.set (2 ^ j) (coverParity L w j)) := rfl
    rw [List.nodup_cons] at hnd
    rw [step]
    by_cases hij : i = j
    · subst hij
      rw [elem_setGroups_other, elem_set, if_pos ⟨rfl, hlt⟩]
      intro j hj heq
      exact hnd.1 (Nat.pow_right_injective (le_refl 2) heq ▸ hj)
    · rw [ih _ (by simpa [hij] using hi) hnd.2 (by simpa using hlt)]
      refine coverParity_congr (fun p hp => ?_) i
      rw [elem_set, if_neg]
      rintro ⟨rfl, _⟩
      simp at hp

@[simp] theorem placeGroups_length (L : Layout) (w : Bits) : (placeGroups L w).length = w.length :=
  setGroups_length L _ w

@[simp] theorem placeGlobal_length (w : Bits) : (placeGlobal w).length = w.length := by simp [placeGlobal]

/-- The codeword has `T` elements. -/
@[simp] theorem codeword_length (L : Layout) (D : Bits) : (codeword L D).length = L.T := by simp [codeword]

/-! ## The codeword, position by position -/

variable {L : Layout} {D : Bits}

theorem elem_placeGlobal {w : Bits} {p : Nat} (hp : p ≠ 0) : elem (placeGlobal w) p = elem w p := by
  rw [placeGlobal, elem_set, if_neg fun h => hp h.1.symm]

/-- A DATA position holds its data bit. -/
theorem codeword_data (hD : D.length = L.dpos.length) {j : Nat} (hj : j < L.dpos.length) :
    elem (codeword L D) L.dpos[j] = D[j]'(hD ▸ hj) := by
  have hdata := ((mem_dpos L _).1 (List.getElem_mem hj)).2
  have hpos := (isData_iff _).1 hdata
  rw [codeword, elem_placeGlobal (by omega), placeGroups]
  rw [show ∀ w, (List.range L.k).foldl (fun w i => w.set (2 ^ i) (coverParity L w i)) w
    = setGroups L (List.range L.k) w from fun _ => rfl]
  rw [elem_setGroups_other _ _ _ _ fun i _ => hpos.2 i]
  exact elem_placeData hD (bvOfSize_length _) hj

/-- A GROUP position holds the parity of the positions its group covers (41_encoder.md R142). -/
theorem codeword_group (h : L.wf = true) {i : Nat} (hi : i < L.k) :
    elem (codeword L D) (2 ^ i) = coverParity L (codeword L D) i := by
  have hpow : 2 ^ i ≠ 0 := (Nat.two_pow_pos i).ne'
  have hset : placeGroups L (placeData L D (bvOfSize L.T))
    = setGroups L (List.range L.k) (placeData L D (bvOfSize L.T)) := rfl
  rw [codeword, elem_placeGlobal hpow, hset,
    elem_setGroups _ _ _ (List.mem_range.2 hi) List.nodup_range (by simpa using wf_group_lt h hi)]
  refine coverParity_congr (fun p hp => ?_) i
  have hpos := (isData_iff _).1 hp
  rw [elem_placeGlobal (by omega), elem_setGroups_other _ _ _ _ fun i _ => hpos.2 i]

/-- Replacing the first element changes the parity by both elements. -/
theorem bvParity_set_zero {w : Bits} (b : Bool) (hw : 0 < w.length) :
    bvParity (w.set 0 b) = xor (xor b (elem w 0)) (bvParity w) := by
  cases w with
  | nil => simp at hw
  | cons a w => cases a <;> cases b <;> simp [elem]

/-- The whole codeword has even parity (41_encoder.md R143). -/
theorem codeword_parity (h : L.wf = true) : bvParity (codeword L D) = false := by
  have hT := wf_T h
  have hset : placeGroups L (placeData L D (bvOfSize L.T))
    = setGroups L (List.range L.k) (placeData L D (bvOfSize L.T)) := rfl
  have hzero : elem (placeGroups L (placeData L D (bvOfSize L.T))) 0 = false := by
    rw [hset, elem_setGroups_other _ _ _ _ fun i _ => (Nat.two_pow_pos i).ne,
      elem_placeData_other isData_zero]
    simp [elem, bvOfSize]
  rw [codeword, placeGlobal, bvParity_set_zero _ (by simp [hT]), hzero]
  simp

/-! ## What the codec functions answer -/

/-- ENCODE on a block of `s` bytes. -/
theorem encodeBlock_of_length (h : L.wf = true) {m : Bytes} (hm : m.length = L.s) :
    encodeBlock L m = .ok (bvToBytes (codeword L (bvFromBytes m))) := by
  have hd : (bvFromBytes m).length = L.d := by rw [bvFromBytes_length, hm, wf_d h]
  rw [encodeBlock, if_neg (by simpa using hm), ← hd, bvPadTo_self]

/-- Parsing a serialized vector of `T` elements and cutting it to `T` elements gives it back. -/
theorem codewordOf_bvToBytes {w : Bits} (hw : w.length = L.T) : codewordOf L (bvToBytes w) = w := by
  have hlen : L.T ≤ 8 * (bvToBytes w).length := by rw [bvToBytes_length]; omega
  refine List.ext_getElem (by simp [codewordOf]; omega) fun i h1 h2 => ?_
  have hi : i < 8 * (bvToBytes w).length := by omega
  rw [← Option.some_inj, ← List.getElem?_eq_getElem, codewordOf, List.getElem?_take, if_pos (by omega),
    bvFromBytes_getElem? hi, bufBit_bvToBytes]
  simp [h2]

/-- SYNDROME on two vectors of one length. -/
theorem syndromeOf_of_length {r f : Bits} (h : r.length = f.length) :
    syndromeOf r f
      = .ok (List.zipWith xor (bvSelectWhere r isGroup) (bvSelectWhere f isGroup), bvParity r) := by
  have hl : (bvSelectWhere r isGroup).length = (bvSelectWhere f isGroup).length := by
    simp [bvSelectWhere_length, h]
  rw [syndromeOf, bvXor_of_length hl]

/-- DECODE's last steps never raise: the table corrects only below `T`. -/
theorem decodeResult_ok {cand : Bytes} {f : Bits} {n : Nat} {g : Bool} (hf : f.length = L.T) :
    decodeResult L cand f n g = .ok
      (if decideStatus L.T n g = .singleErrorCorrected then dataOf (f.set n (!elem f n)) else cand,
        decideStatus L.T n g) := by
  unfold decodeResult
  cases hst : decideStatus L.T n g with
  | noError => simp
  | doubleErrorDetected => simp
  | singleErrorCorrected =>
    have hn : n < L.T := by
      by_contra hge
      have hge : n ≥ L.T := by omega
      simp only [decideStatus, hge, if_true] at hst
      split at hst
      · simp at hst
      · split at hst <;> simp at hst
    rw [bvSet_eq, if_pos (by omega)]
    simp

end Sys2Proof.Machine
end

