-- ==== Sys2Proof/Laws/Decode.lean ====
section
/-! SUPPORT. The building blocks of the decoder read back what the encoder's write. -/

namespace Sys2Proof

@[simp] theorem andThen_ok {α β : Type} (a : α) (rest : Bytes) (k : α → Bytes → Parsed β) :
    andThen (.ok (a, rest)) k = k a rest := rfl

@[simp] theorem andThen_error {α β : Type} (e : DecodeReject) (k : α → Bytes → Parsed β) :
    andThen (.error e) k = .error e := rfl

/-- A parser in sequence answers only through both. -/
theorem andThen_eq_ok {α β : Type} {r : Parsed α} {k : α → Bytes → Parsed β} {x : β × Bytes}
    (h : andThen r k = .ok x) : ∃ a rest, r = .ok (a, rest) ∧ k a rest = .ok x := by
  cases r with
  | error e => simp at h
  | ok p => exact ⟨p.1, p.2, rfl, h⟩

theorem parseNat_natBytesUpTo (fuel n : Nat) (rest : Bytes) (h : n < fuel) :
    parseNat (natBytesUpTo fuel n ++ rest) = .ok (n, rest) := by
  induction fuel generalizing n with
  | zero => omega
  | succ fuel ih =>
    by_cases hn : n < 128
    · have hb : n % 256 = n := Nat.mod_eq_of_lt (by omega)
      simp [natBytesUpTo, hn, parseNat, hb]
    · have hb : (n % 128 + 128) % 256 = n % 128 + 128 := Nat.mod_eq_of_lt (by omega)
      have hge : ¬ n % 128 + 128 < 128 := by omega
      have hz : n / 128 ≠ 0 := by omega
      simp only [natBytesUpTo, hn, if_false, List.cons_append, parseNat, BitVec.toNat_ofNat, hb, hge,
        ih (n / 128) (by omega), hz]
      congr 2
      omega

/-- A natural is read back. -/
@[simp] theorem parseNat_natBytes (n : Nat) (rest : Bytes) : parseNat (natBytes n ++ rest) = .ok (n, rest) :=
  parseNat_natBytesUpTo (n + 1) n rest (by omega)

@[simp] theorem parseByte_cons (b : Byte) (rest : Bytes) : parseByte (b :: rest) = .ok (b, rest) := rfl

/-- A bit is read back. -/
@[simp] theorem parseBit_bitByte (b : Bool) (rest : Bytes) : parseBit (bitByte b :: rest) = .ok (b, rest) := by
  cases b <;> rfl

/-- Items that are each read back are read back in sequence. -/
theorem parseMany_flatMap {α : Type} {p : Bytes → Parsed α} {enc : α → Bytes}
    (h : ∀ x rest, p (enc x ++ rest) = .ok (x, rest)) (xs : List α) (rest : Bytes) :
    parseMany p xs.length (xs.flatMap enc ++ rest) = .ok (xs, rest) := by
  induction xs with
  | nil => rfl
  | cons x xs ih => simp [parseMany, List.append_assoc, h, ih]

/-- Every number names a second variable distinct from the first. -/
theorem secondName_ne (first n : Nat) : first ≠ secondName first n := by
  unfold secondName; split <;> omega

/-- The number of the second variable is read back. -/
theorem secondName_secondCode {first second : Nat} (h : first ≠ second) :
    secondName first (secondCode first second) = second := by
  unfold secondName secondCode; split_ifs <;> omega

/-- The second variable of a number has that number. -/
theorem secondCode_secondName (first n : Nat) : secondCode first (secondName first n) = n := by
  unfold secondName secondCode; split_ifs <;> omega

end Sys2Proof
end

