-- ==== Sys2Proof/Laws/State.lean ====
section
/-! SUPPORT. One lemma per field per update of State. -/

namespace Sys2Proof.Machine

variable (s : State) (x : Nat) (v : Value) (e : OpError) (rest : Bytes)

@[simp] theorem writeVar_layout : (s.writeVar x v).layout = s.layout := rfl
@[simp] theorem writeVar_vars : (s.writeVar x v).vars = insertVar s.vars x v := rfl
@[simp] theorem writeVar_program : (s.writeVar x v).program = s.program := rfl
@[simp] theorem writeVar_line : (s.writeVar x v).line = s.line := rfl
@[simp] theorem writeVar_errors : (s.writeVar x v).errors = s.errors := rfl

@[simp] theorem recordError_layout : (s.recordError e).layout = s.layout := rfl
@[simp] theorem recordError_vars : (s.recordError e).vars = s.vars := rfl
@[simp] theorem recordError_program : (s.recordError e).program = s.program := rfl
@[simp] theorem recordError_line : (s.recordError e).line = s.line := rfl
@[simp] theorem recordError_errors : (s.recordError e).errors = s.errors ++ [(s.line, e)] := rfl
@[simp] theorem recordError_readVar : (s.recordError e).readVar x = s.readVar x := rfl

@[simp] theorem advance_layout : (s.advance rest).layout = s.layout := rfl
@[simp] theorem advance_vars : (s.advance rest).vars = s.vars := rfl
@[simp] theorem advance_program : (s.advance rest).program = rest := rfl
@[simp] theorem advance_line : (s.advance rest).line = s.line + 1 := rfl
@[simp] theorem advance_errors : (s.advance rest).errors = s.errors := rfl
@[simp] theorem advance_readVar : (s.advance rest).readVar x = s.readVar x := rfl

@[simp] theorem setLayout_readVar (L : Layout) : ({ s with layout := L } : State).readVar x = s.readVar x := rfl

@[simp] theorem writeVars_nil : s.writeVars [] = s := rfl

@[simp] theorem writeVars_cons (w : Nat × Value) (ws : List (Nat × Value)) :
    s.writeVars (w :: ws) = (s.writeVar w.1 w.2).writeVars ws := rfl

@[simp] theorem writeVars_layout (ws : List (Nat × Value)) : (s.writeVars ws).layout = s.layout := by
  induction ws generalizing s with
  | nil => rfl
  | cons w ws ih => simp [ih]

@[simp] theorem writeVars_program (ws : List (Nat × Value)) : (s.writeVars ws).program = s.program := by
  induction ws generalizing s with
  | nil => rfl
  | cons w ws ih => simp [ih]

@[simp] theorem writeVars_line (ws : List (Nat × Value)) : (s.writeVars ws).line = s.line := by
  induction ws generalizing s with
  | nil => rfl
  | cons w ws ih => simp [ih]

@[simp] theorem writeVars_errors (ws : List (Nat × Value)) : (s.writeVars ws).errors = s.errors := by
  induction ws generalizing s with
  | nil => rfl
  | cons w ws ih => simp [ih]

end Sys2Proof.Machine
end

