-- ==== Sys2Proof/Laws/Vars.lean ====
section
/-! SUPPORT. The store of program variables: read after write, and its canonical form. -/

namespace Sys2Proof.Machine

/-- A read after a write: the value written under its own name, the old one under every other. -/
theorem lookupVar_insertVar (vars : List (Nat × Value)) (x : Nat) (v : Value) (y : Nat) :
    lookupVar (insertVar vars x v) y = if y = x then some v else lookupVar vars y := by
  induction vars with
  | nil => simp [insertVar, lookupVar]
  | cons h rest ih =>
    obtain ⟨z, u⟩ := h
    by_cases hlt : x < z
    · simp [insertVar, hlt, lookupVar]
    · by_cases heq : x = z
      · subst heq
        by_cases hy : y = x <;> simp [insertVar, lookupVar, hy]
      · simp only [insertVar, hlt, heq, if_false, lookupVar, ih]
        by_cases hy : y = z
        · subst hy; simp [Ne.symm heq]
        · simp [hy]

@[simp] theorem readVar_writeVar (s : State) (x : Nat) (v : Value) (y : Nat) :
    (s.writeVar x v).readVar y = if y = x then some v else s.readVar y :=
  lookupVar_insertVar s.vars x v y

/-- The names of a store after a write: those before it, and the written one. -/
theorem mem_insertVar_names (vars : List (Nat × Value)) (x : Nat) (v : Value) (y : Nat) :
    y ∈ (insertVar vars x v).map Prod.fst ↔ y = x ∨ y ∈ vars.map Prod.fst := by
  induction vars with
  | nil => simp [insertVar]
  | cons h rest ih =>
    obtain ⟨z, u⟩ := h
    by_cases hlt : x < z
    · simp [insertVar, hlt]
    · by_cases heq : x = z
      · subst heq; simp [insertVar]
      · simp only [insertVar, hlt, heq, if_false, List.map_cons, List.mem_cons, ih]
        tauto

/-- A write keeps the canonical form. -/
theorem varsWf_insertVar {vars : List (Nat × Value)} (h : varsWf vars = true) (x : Nat) (v : Value) :
    varsWf (insertVar vars x v) = true := by
  simp only [varsWf, decide_eq_true_eq] at *
  induction vars with
  | nil => simp [insertVar]
  | cons hd rest ih =>
    obtain ⟨z, u⟩ := hd
    simp only [List.map_cons, List.pairwise_cons] at h
    by_cases hlt : x < z
    · simp only [insertVar, hlt, if_true, List.map_cons, List.pairwise_cons, List.mem_cons, forall_eq_or_imp]
      exact ⟨⟨trivial, fun y hy => hlt.trans (h.1 y hy)⟩, h⟩
    · by_cases heq : x = z
      · subst heq; simpa [insertVar] using h
      · simp only [insertVar, hlt, heq, if_false, List.map_cons, List.pairwise_cons]
        refine ⟨fun y hy => ?_, ih h.2⟩
        rcases (mem_insertVar_names rest x v y).1 hy with rfl | hy
        · omega
        · exact h.1 y hy

/-- Every write of an operation's results keeps the canonical form. -/
theorem varsWf_writeVars {s : State} (h : varsWf s.vars = true) (ws : List (Nat × Value)) :
    varsWf (s.writeVars ws).vars = true := by
  induction ws generalizing s with
  | nil => exact h
  | cons w ws ih => exact ih (varsWf_insertVar h w.1 w.2)

/-- The store is canonical at reset. -/
theorem varsWf_reset : varsWf State.reset.vars = true := by decide

/-- A name that no write is to reads as before. -/
theorem readVar_writeVars_other (s : State) (ws : List (Nat × Value)) (y : Nat) (h : y ∉ ws.map Prod.fst) :
    (s.writeVars ws).readVar y = s.readVar y := by
  induction ws generalizing s with
  | nil => rfl
  | cons w ws ih =>
    simp only [List.map_cons, List.mem_cons, not_or] at h
    rw [writeVars_cons, ih _ h.2, readVar_writeVar, if_neg h.1]

/-- Writes to two names commute on a canonical store. -/
theorem insertVar_comm {vars : List (Nat × Value)} (h : varsWf vars = true) {x y : Nat} (hxy : x ≠ y)
    (u v : Value) : insertVar (insertVar vars x u) y v = insertVar (insertVar vars y v) x u := by
  simp only [varsWf, decide_eq_true_eq] at h
  induction vars with
  | nil =>
    rcases Nat.lt_or_gt_of_ne hxy with hlt | hlt
    · simp [insertVar, hlt, Nat.not_lt.2 hlt.le, hxy.symm]
    · simp [insertVar, hlt, Nat.not_lt.2 hlt.le, hxy]
  | cons hd rest ih =>
    obtain ⟨z, w⟩ := hd
    simp only [List.map_cons, List.pairwise_cons] at h
    rcases Nat.lt_trichotomy x z with hx | hx | hx <;> rcases Nat.lt_trichotomy y z with hy | hy | hy <;>
      rcases Nat.lt_or_gt_of_ne hxy with hlt | hlt <;>
      first
        | omega
        | (simp only [insertVar]; grind [insertVar])

/-- Writing the same value twice is writing it once. -/
theorem insertVar_idem (vars : List (Nat × Value)) (x : Nat) (v : Value) :
    insertVar (insertVar vars x v) x v = insertVar vars x v := by
  induction vars with
  | nil => simp [insertVar]
  | cons hd rest ih =>
    obtain ⟨z, w⟩ := hd
    by_cases hlt : x < z
    · simp [insertVar, hlt]
    · by_cases heq : x = z
      · subst heq; simp [insertVar]
      · simp [insertVar, hlt, heq, ih]

end Sys2Proof.Machine
end

