-- ==== Sys2Proof/Laws/Exec.lean ====
section
/-! SUPPORT. What the shared operations answer, and what any operation can do to a state. -/

namespace Sys2Proof.Machine

/-! ## The shared operations -/

@[simp] theorem withOperand_ok {α : Type} (a : α) (k : α → Result) : withOperand (.ok a) k = k a := rfl

@[simp] theorem withOperand_error {α : Type} (r : Refusal) (k : α → Result) :
    withOperand (.error r) k = .refused r := rfl

@[simp] theorem deliver_ok (ws : List (Nat × Value)) (s : State) : deliver (.ok ws) s = .next (s.writeVars ws) := rfl

@[simp] theorem deliver_error (e : OpError) (s : State) : deliver (.error e) s = raise e s := rfl

@[simp] theorem raise_invalidLength (g r : Nat) (s : State) :
    raise (.invalidLength g r) s = .next (s.recordError (.invalidLength g r)) := rfl

@[simp] theorem raise_invalidBlockSize (n : Nat) (s : State) :
    raise (.invalidBlockSize n) s = .refused (.invalidBlockSize n) := rfl

@[simp] theorem raise_indexOutOfRange (i n : Nat) (s : State) :
    raise (.indexOutOfRange i n) s = .fault (.indexOutOfRange i n) := rfl

@[simp] theorem raise_lengthMismatch (a b : Nat) (s : State) :
    raise (.lengthMismatch a b) s = .fault (.lengthMismatch a b) := rfl

theorem withOperand_next {α : Type} {r : Except Refusal α} {k : α → Result} {t : State}
    (h : withOperand r k = .next t) : ∃ a, r = .ok a ∧ k a = .next t := by
  cases r with
  | ok a => exact ⟨a, rfl, h⟩
  | error e => simp at h

/-- An error goes on only as InvalidLength, recorded. -/
theorem raise_next {e : OpError} {s t : State} (h : raise e s = .next t) :
    ∃ g r, e = .invalidLength g r ∧ t = s.recordError (.invalidLength g r) := by
  cases e with
  | invalidLength g r => exact ⟨g, r, rfl, by simpa using h.symm⟩
  | invalidBlockSize n => simp at h
  | indexOutOfRange i n => simp at h
  | lengthMismatch a b => simp at h

/-- Ending an operation goes on with its results written, or with InvalidLength recorded. -/
theorem deliver_next {r : Except OpError (List (Nat × Value))} {s t : State} (h : deliver r s = .next t) :
    (∃ ws, r = .ok ws ∧ t = s.writeVars ws) ∨ ∃ g q, t = s.recordError (.invalidLength g q) := by
  cases r with
  | ok ws => exact .inl ⟨ws, rfl, by simpa using h.symm⟩
  | error e =>
    obtain ⟨g, q, _, rfl⟩ := raise_next (e := e) h
    exact .inr ⟨g, q, rfl⟩

/-- The same, where the results are values for the names `names`. -/
theorem deliver_map_next {α : Type} {r : Except OpError α} {f : α → List (Nat × Value)} {names : List Nat}
    {s t : State} (hf : ∀ a, (f a).map Prod.fst = names) (h : deliver (r.map f) s = .next t) :
    (∃ ws, ws.map Prod.fst = names ∧ t = s.writeVars ws) ∨ ∃ g q, t = s.recordError (.invalidLength g q) := by
  rcases deliver_next h with ⟨ws, hr, rfl⟩ | h
  · cases r with
    | ok a =>
      simp only [Except.map, Except.ok.injEq] at hr
      subst hr
      exact .inl ⟨f a, hf a, rfl⟩
    | error e => simp [Except.map] at hr
  · exact .inr h

/-- The same for one result that cannot fail. -/
theorem deliver_one_next {x : Nat} {v : Value} {s t : State} (h : deliver (.ok [(x, v)]) s = .next t) :
    (∃ ws, ws.map Prod.fst = [x] ∧ t = s.writeVars ws) ∨ ∃ g q, t = s.recordError (.invalidLength g q) := by
  rcases deliver_next h with ⟨ws, hr, rfl⟩ | h
  · cases hr
    exact .inl ⟨_, rfl, rfl⟩
  · exact .inr h

/-! ## Operand forms -/

@[simp] theorem readBytes_lit (b : Bytes) (n : Nat) (s : State) : readBytes (.lit b) n s = .ok b := rfl
@[simp] theorem readBytes_zeros (n : Nat) (s : State) : readBytes .zeros n s = .ok (List.replicate n 0) := rfl
@[simp] theorem readVec_lit (v : Bits) (s : State) : readVec (.lit v) s = .ok v := rfl
@[simp] theorem readVec_zeros (s : State) : readVec .zeros s = .ok (bvOfSize s.layout.T) := rfl
@[simp] theorem readNat_lit (n : Nat) (s : State) : readNat (.lit n) s = .ok n := rfl
@[simp] theorem readSize_lit (n : Nat) (s : State) : readSize (.lit n) s = .ok n := rfl
@[simp] theorem readSize_default (s : State) : readSize .default s = .ok Config.defaultBlockSize := rfl
@[simp] theorem toVec_inPlace (x : Nat) : TargetOperand.toVec x .inPlace = .var x := rfl
@[simp] theorem toVec_zeros (x : Nat) : TargetOperand.toVec x .zeros = .zeros := rfl
@[simp] theorem toVec_lit (x : Nat) (v : Bits) : TargetOperand.toVec x (.lit v) = .lit v := rfl

/-- A variable with a value of the kind asked for. -/
theorem readAs_ok {α : Type} {as : Value → Option α} {x : Nat} {s : State} {v : Value} {a : α}
    (h : s.readVar x = some v) (ha : as v = some a) : readAs as x s = .ok a := by simp [readAs, h, ha]

/-- A variable with a value of another kind. -/
theorem readAs_otherKind {α : Type} {as : Value → Option α} {x : Nat} {s : State} {v : Value}
    (h : s.readVar x = some v) (ha : as v = none) : readAs as x s = .error (.otherKind x) := by simp [readAs, h, ha]

/-- A variable with no value. -/
theorem readAs_noValue {α : Type} {as : Value → Option α} {x : Nat} {s : State}
    (h : s.readVar x = none) : readAs as x s = .error (.noValue x) := by simp [readAs, h]

@[simp] theorem bitOfNat_zero : bitOfNat 0 = .ok false := rfl
@[simp] theorem bitOfNat_one : bitOfNat 1 = .ok true := rfl

/-- A number that is no bit. -/
theorem bitOfNat_notABit {n : Nat} (h : 2 ≤ n) : bitOfNat n = .error (.notABit n) := by
  simp [bitOfNat, show n ≠ 0 by omega, show n ≠ 1 by omega]

/-! ## What an operation can do -/

/-- Everything an operation that goes on can have done: its results are written to its own names; or it is one whose
length contract was not met, and InvalidLength is recorded; or it is LAYOUT, and the layout is the constructed one. -/
def Effect (i : Instr) (s t : State) : Prop :=
  (∃ ws, ws.map Prod.fst = i.dests ∧ t = s.writeVars ws ∧ ∀ z, i ≠ .layout z) ∨
  (∃ g r, t = s.recordError (.invalidLength g r)) ∨
  ∃ z n, i = .layout z ∧ readSize z s = .ok n ∧ 1 ≤ n ∧ t = { s with layout := layoutOf n }

/-- Whatever an operation other than LAYOUT did, the layout is as it was. -/
theorem Effect.layout_eq {i : Instr} {s t : State} (h : Effect i s t) (hi : ∀ z, i ≠ .layout z) :
    t.layout = s.layout := by
  rcases h with ⟨ws, _, rfl, _⟩ | ⟨g, r, rfl⟩ | ⟨z, n, rfl, _⟩
  · simp
  · simp
  · exact absurd rfl (hi z)

theorem Effect.of_deliver {i : Instr} {s t : State} (hi : ∀ z, i ≠ .layout z)
    (h : (∃ ws, ws.map Prod.fst = i.dests ∧ t = s.writeVars ws) ∨ ∃ g q, t = s.recordError (.invalidLength g q)) :
    Effect i s t := by
  rcases h with ⟨ws, hws, rfl⟩ | h
  · exact .inl ⟨ws, hws, rfl, hi⟩
  · exact .inr (.inl h)

/-- Peel the operands off an operation that goes on. -/
theorem peel {α : Type} {r : Except Refusal α} {k : α → Result} {i : Instr} {s t : State}
    (h : withOperand r k = .next t) (hk : ∀ a, k a = .next t → Effect i s t) : Effect i s t := by
  obtain ⟨a, _, h⟩ := withOperand_next h
  exact hk a h

/-- The one inversion lemma of `exec`. -/
theorem exec_next {i : Instr} {s t : State} (h : exec i s = .next t) : Effect i s t := by
  cases i with
  | encode c m =>
    exact peel h fun _ h => .of_deliver (by simp) (deliver_map_next (names := [c]) (fun _ => rfl) h)
  | decode m st c =>
    exact peel h fun _ h => .of_deliver (by simp) (deliver_map_next (names := [m, st]) (fun _ => rfl) h)
  | syndrome syn g r f =>
    exact peel h fun _ h => peel h fun _ h => peel h fun _ h => peel h fun _ h =>
      .of_deliver (by simp) (deliver_map_next (names := [syn, g]) (fun _ => rfl) h)
  | bvXor x a b =>
    exact peel h fun _ h => peel h fun _ h =>
      .of_deliver (by simp) (deliver_map_next (names := [x]) (fun _ => rfl) h)
  | bvParity b v =>
    exact peel h fun _ h => .of_deliver (by simp) (deliver_one_next h)
  | bvSelectWhere w v p =>
    exact peel h fun _ h => .of_deliver (by simp) (deliver_one_next h)
  | bvPadTo w v n =>
    exact peel h fun _ h => peel h fun _ h =>
      .of_deliver (by simp) (deliver_map_next (names := [w]) (fun _ => rfl) h)
  | bvFromBytes v buf order =>
    refine peel h fun _ h => ?_
    cases order with
    | little => exact .of_deliver (by simp) (deliver_one_next h)
    | other n => simp at h
  | bvToBytes buf v =>
    exact peel h fun _ h => .of_deliver (by simp) (deliver_one_next h)
  | bvGet b v j =>
    exact peel h fun _ h => peel h fun _ h =>
      .of_deliver (by simp) (deliver_map_next (names := [b]) (fun _ => rfl) h)
  | bvSet v old j b =>
    exact peel h fun _ h => peel h fun _ h => peel h fun _ h =>
      .of_deliver (by simp) (deliver_map_next (names := [v]) (fun _ => rfl) h)
  | bvOfSize v n =>
    exact peel h fun _ h => .of_deliver (by simp) (deliver_one_next h)
  | layout z =>
    obtain ⟨n, hn, h⟩ := withOperand_next h
    by_cases hlt : n < 1
    · simp [constructLayout, hlt] at h
    · simp only [constructLayout, hlt, if_false] at h
      exact .inr (.inr ⟨z, n, rfl, hn, by omega, by simpa using h.symm⟩)

end Sys2Proof.Machine
end

