-- ==== Sys2Proof/Laws/PerInstr.lean ====
section
/-! SUPPORT. What holds of every instruction as syntax, one lemma per constructor: its bytes begin with its 4-bit
operation code, one of 0x1 to 0xD (30_encoding.md R69), which `parseOperands` has a parser for. -/

namespace Sys2Proof.Laws.OpcodeFirst

/-- The first byte of an instruction's encoding is its operation code, and that code names an operation. -/
def Statement (i : Instr) : Prop :=
  (encodeInstr i).head? = some (opCode i) ∧ 1 ≤ (opCode i).toNat ∧ (opCode i).toNat ≤ 13 ∧
    ∀ bs, (parseOperands (opCode i).toNat bs).isSome = true

theorem encode (c : Nat) (m : BytesOperand) : Statement (.encode c m) := ⟨rfl, by simp [opCode], by simp [opCode], fun _ => rfl⟩

theorem decode (m st : Nat) (c : BytesOperand) : Statement (.decode m st c) :=
  ⟨rfl, by simp [opCode], by simp [opCode], fun _ => rfl⟩

theorem syndrome (syn g : Nat) (r f : VecOperand) : Statement (.syndrome syn g r f) :=
  ⟨rfl, by simp [opCode], by simp [opCode], fun _ => rfl⟩

theorem bvXor (x : Nat) (a b : VecOperand) : Statement (.bvXor x a b) := ⟨rfl, by simp [opCode], by simp [opCode], fun _ => rfl⟩

theorem bvParity (b : Nat) (v : VecOperand) : Statement (.bvParity b v) := ⟨rfl, by simp [opCode], by simp [opCode], fun _ => rfl⟩

theorem bvSelectWhere (w : Nat) (v : VecOperand) (p : Pred) : Statement (.bvSelectWhere w v p) :=
  ⟨rfl, by simp [opCode], by simp [opCode], fun _ => rfl⟩

theorem bvPadTo (w : Nat) (v : VecOperand) (n : NatOperand) : Statement (.bvPadTo w v n) :=
  ⟨rfl, by simp [opCode], by simp [opCode], fun _ => rfl⟩

theorem bvFromBytes (v : Nat) (buf : BytesOperand) (order : BitOrder) : Statement (.bvFromBytes v buf order) :=
  ⟨rfl, by simp [opCode], by simp [opCode], fun _ => rfl⟩

theorem bvToBytes (buf : Nat) (v : VecOperand) : Statement (.bvToBytes buf v) :=
  ⟨rfl, by simp [opCode], by simp [opCode], fun _ => rfl⟩

theorem bvGet (b : Nat) (v : VecOperand) (i : NatOperand) : Statement (.bvGet b v i) :=
  ⟨rfl, by simp [opCode], by simp [opCode], fun _ => rfl⟩

theorem bvSet (v : Nat) (old : TargetOperand) (i : NatOperand) (b : BitOperand) : Statement (.bvSet v old i b) :=
  ⟨rfl, by simp [opCode], by simp [opCode], fun _ => rfl⟩

theorem bvOfSize (v : Nat) (n : NatOperand) : Statement (.bvOfSize v n) := ⟨rfl, by simp [opCode], by simp [opCode], fun _ => rfl⟩

theorem layout (s : SizeOperand) : Statement (.layout s) := ⟨rfl, by simp [opCode], by simp [opCode], fun _ => rfl⟩

end Sys2Proof.Laws.OpcodeFirst
end

