-- ==== Sys2Proof/Laws/Step.lean ====
section
/-! SUPPORT. What one step is, and what it can do. -/

namespace Sys2Proof.Machine

/-- A line that decodes is fetched. -/
theorem fetch_of_decode {program rest : Bytes} {i : Instr} (h : decodeInstr program = .ok (i, rest)) :
    fetch program = .ok (i, rest) := by
  cases program with
  | nil => simp [decodeInstr] at h
  | cons b bs => simp [fetch, h]

/-- A fetched line decodes. -/
theorem decode_of_fetch {program rest : Bytes} {i : Instr} (h : fetch program = .ok (i, rest)) :
    decodeInstr program = .ok (i, rest) := by
  cases program with
  | nil => simp [fetch] at h
  | cons b bs =>
    simp only [fetch] at h
    split at h <;> simp_all

/-- A step that goes on has run the decoded line and gone on to the next. -/
theorem step_next {s t : State} (h : step s = .next t) :
    ∃ i rest u, decodeInstr s.program = .ok (i, rest) ∧ exec i s = .next u ∧ t = u.advance rest := by
  unfold step at h
  split at h
  · simp at h
  · next i rest hf =>
    split at h
    · next u hu => exact ⟨i, rest, u, decode_of_fetch hf, hu, by simpa using h.symm⟩
    · simp at h
    · simp at h

end Sys2Proof.Machine
end

