-- ==== Sys2Proof/Tests/Slice0.lean ====
section
/-! SUPPORT. Tests of the model. Expected results are those of 95_test_vectors.md (the vector's id stands in the name or
above the theorem) or are written out by hand from the encoding of log entry 1. After them, one witness for the
hypotheses of every statement that has some. -/

namespace Sys2Proof.Tests

open Sys2Proof.Machine Sys2Proof.Safety

/-- A state after reset with some program variables. -/
def st (vars : List (Nat × Value)) : State := { State.reset with vars := vars }

/-- The state after reset with the layout of `n` data bytes. -/
def sized (n : Nat) : State := { State.reset with layout := layoutOf n }

/-- The state an operation goes on with (the state after reset where it stops). -/
def after (r : Result) : State :=
  match r with
  | .next t => t
  | .fault _ => State.reset
  | .refused _ => State.reset

/-- The operation goes on. -/
def goesOn (r : Result) : Bool :=
  match r with
  | .next _ => true
  | .fault _ => false
  | .refused _ => false

/-- The fault an operation stops with. -/
def faultOf (r : Result) : Option Fault :=
  match r with
  | .next _ => none
  | .fault e => some e
  | .refused _ => none

/-- The refusal an operation stops with. -/
def refusalOf (r : Result) : Option Refusal :=
  match r with
  | .next _ => none
  | .fault _ => none
  | .refused e => some e

/-- The value of a variable after an operation that goes on. -/
def varAfter (r : Result) (x : Nat) : Option Value := if goesOn r then (after r).readVar x else none

/-! ## Well-formedness -/

theorem test_wellFormed_decode_names : Instr.wellFormed (.decode 3 3 .zeros) = false := by decide
theorem test_wellFormed_syndrome_names : Instr.wellFormed (.syndrome 2 2 .zeros .zeros) = false := by decide

/-! ## Decoding: one instruction of every operation, written out byte by byte -/

theorem test_decode_encode :
    decodeInstr [0x01, 0x05, 0x01, 0x01, 0x74] = .ok (.encode 5 (.lit [0x74]), []) := by decide
theorem test_decode_decode :
    decodeInstr [0x02, 0x01, 0x00, 0x02, 0x05] = .ok (.decode 1 0 (.var 5), []) := by decide
theorem test_decode_syndrome :
    decodeInstr [0x03, 0x00, 0x00, 0x02, 0x07, 0x00] = .ok (.syndrome 0 1 (.var 7) .zeros, []) := by decide
theorem test_decode_bvXor :
    decodeInstr [0x04, 0x09, 0x01, 0x02, 0x01, 0x00, 0x02, 0x03]
      = .ok (.bvXor 9 (.lit [true, false]) (.var 3), []) := by decide
theorem test_decode_bvParity : decodeInstr [0x05, 0x02, 0x02, 0x01] = .ok (.bvParity 2 (.var 1), []) := by decide
theorem test_decode_bvSelectWhere :
    decodeInstr [0x06, 0x04, 0x02, 0x01, 0x07, 0x02, 0x03, 0x05]
      = .ok (.bvSelectWhere 4 (.var 1) (.listed [3, 5]), []) := by decide
theorem test_decode_bvPadTo :
    decodeInstr [0x07, 0x04, 0x02, 0x01, 0x00, 0x80, 0x01] = .ok (.bvPadTo 4 (.var 1) (.lit 128), []) := by decide
theorem test_decode_bvFromBytes :
    decodeInstr [0x08, 0x00, 0x02, 0x01, 0x01] = .ok (.bvFromBytes 0 (.var 1) (.other 0), []) := by decide
theorem test_decode_bvToBytes : decodeInstr [0x09, 0x00, 0x02, 0x01] = .ok (.bvToBytes 0 (.var 1), []) := by decide
theorem test_decode_bvGet :
    decodeInstr [0x0A, 0x00, 0x02, 0x01, 0x00, 0x0B] = .ok (.bvGet 0 (.var 1) (.lit 11), []) := by decide
theorem test_decode_bvSet :
    decodeInstr [0x0B, 0x01, 0x02, 0x00, 0x0B, 0x00, 0x01, 0xFF]
      = .ok (.bvSet 1 .inPlace (.lit 11) (.lit 1), [0xFF]) := by decide
theorem test_decode_bvOfSize : decodeInstr [0x0C, 0x00, 0x01, 0x06] = .ok (.bvOfSize 0 (.var 6), []) := by decide
theorem test_decode_layout : decodeInstr [0x0D, 0x01, 0x1F] = .ok (.layout (.lit 31), []) := by decide

theorem test_decode_reserved_code : decodeInstr [0x0E, 0x00] = .error (.reservedOperation 0x0E) := by decide
theorem test_decode_bits_above_code : decodeInstr [0x11, 0x00, 0x00] = .error (.reservedOperation 0x11) := by decide
theorem test_decode_truncated : decodeInstr [0x01, 0x05] = .error .truncated := by decide
theorem test_decode_bad_form : decodeInstr [0x01, 0x05, 0x03] = .error (.badForm 0x03) := by decide
theorem test_decode_bad_bit : decodeInstr [0x05, 0x02, 0x01, 0x01, 0x02] = .error (.badBit 0x02) := by decide
theorem test_decode_long_natural : decodeInstr [0x0D, 0x01, 0x80, 0x00] = .error .nonCanonicalNat := by decide

/-- The program P1: LAYOUT, ENCODE and DECODE, codes D, 1, 2. -/
theorem test_encode_program_P1 :
    encodeInstr (.layout (.lit 1)) ++ encodeInstr (.encode 0 (.lit [0x74])) ++ encodeInstr (.decode 1 2 (.var 0))
      = [0x0D, 0x01, 0x01, 0x01, 0x00, 0x01, 0x01, 0x74, 0x02, 0x01, 0x01, 0x02, 0x00] := by decide

/-! ## The operations -/

/-- LA-8: `s = 31`, where the repository's formula would give `k = 8`. -/
theorem test_layout_LA8 :
    (after (exec (.layout (.lit 31)) State.reset)).layout = { s := 31, d := 248, k := 9, T := 258, OB := 33 } := by
  decide +kernel
theorem test_layout_LA1 : refusalOf (exec (.layout (.lit 0)) State.reset) = some (.invalidBlockSize 0) := by decide

/-- EN-5, the source's own example W2. -/
theorem test_encode_EN5 : varAfter (exec (.encode 7 (.lit [0x74])) State.reset) 7 = some (.bytes [0x55, 0x0F]) := by
  decide
theorem test_encode_EN17 :
    varAfter (exec (.encode 7 (.lit [0x61, 0x62])) (sized 2)) 7 = some (.bytes [0x0F, 0x4D, 0x18]) := by
  decide +kernel

/-- DE-11, the source's own example W3, and DE-25, decision D6. -/
theorem test_decode_DE11 :
    (after (exec (.decode 1 2 (.var 0)) (st [(0, .bytes [0x55, 0x07])]))).vars
      = [(0, .bytes [0x55, 0x07]), (1, .bytes [0x74]), (2, .status .singleErrorCorrected)] := by decide +kernel
theorem test_decode_DE25 :
    (after (exec (.decode 1 2 (.lit [0x7D, 0x0D])) State.reset)).vars
      = [(1, .bytes [0x67]), (2, .status .doubleErrorDetected)] := by decide +kernel

/-- SY-3, on the first 13 bits of the frames 0x55 0x07 and 0x53 0x06. -/
theorem test_syndrome_SY3 :
    (after (exec (.syndrome 4 3 (.lit ((bvFromBytes [0x55, 0x07]).take 13)) (.lit ((bvFromBytes [0x53, 0x06]).take 13)))
      State.reset)).vars = [(3, .bit true), (4, .vec [true, true, false, true])] := by decide +kernel
theorem test_syndrome_other_length :
    refusalOf (exec (.syndrome 4 3 .zeros (.lit [true])) State.reset) = some (.notCodewordLength 1 13) := by decide

theorem test_bvXor_BV20 :
    varAfter (exec (.bvXor 0 (.lit [true, false, true]) (.lit [true, true, false])) State.reset) 0
      = some (.vec [false, true, true]) := by decide
theorem test_bvXor_BV23 :
    faultOf (exec (.bvXor 0 (.lit [true]) (.lit [true, false])) State.reset) = some (.lengthMismatch 1 2) := by decide

theorem test_bvParity_BV24 :
    varAfter (exec (.bvParity 0 (.lit [true, true, true])) State.reset) 0 = some (.bit true) := by decide
theorem test_bvParity_BV26 : varAfter (exec (.bvParity 0 (.lit [])) State.reset) 0 = some (.bit false) := by decide

/-- BV-14: the data of 0x74 out of its frame, with DATA bounded by `T`. -/
theorem test_bvSelectWhere_BV14 :
    varAfter (exec (.bvSelectWhere 0 (.lit (bvFromBytes [0x55, 0x0F])) .data) State.reset) 0
      = some (.vec [false, false, true, false, true, true, true, false]) := by decide +kernel
theorem test_bvSelectWhere_BV13 :
    varAfter (exec (.bvSelectWhere 0 (.lit [true, false, true, true]) (.bitSet 0)) State.reset) 0
      = some (.vec [false, true]) := by decide

theorem test_bvPadTo_BV17 :
    varAfter (exec (.bvPadTo 0 (.lit [true, true]) (.lit 5)) State.reset) 0
      = some (.vec [true, true, false, false, false]) := by decide
theorem test_bvPadTo_BV19 :
    (after (exec (.bvPadTo 0 (.lit [true, true]) (.lit 1)) State.reset)).errors = [(1, .invalidLength 1 2)] := by decide

theorem test_bvFromBytes_BV4 :
    varAfter (exec (.bvFromBytes 0 (.lit [0x01, 0x80]) .little) State.reset) 0
      = some (.vec [true, false, false, false, false, false, false, false,
          false, false, false, false, false, false, false, true]) := by decide
theorem test_bvFromBytes_BV6 :
    refusalOf (exec (.bvFromBytes 0 (.lit [0x74]) (.other 0)) State.reset) = some (.bitOrderNotLittle 0) := by decide

theorem test_bvToBytes_BV28 :
    varAfter (exec (.bvToBytes 0 (.lit (List.replicate 9 true))) State.reset) 0 = some (.bytes [0xFF, 0x01]) := by
  decide
theorem test_bvToBytes_BV27 :
    varAfter (exec (.bvToBytes 0 (.lit [true, false, true])) State.reset) 0 = some (.bytes [0x05]) := by decide

theorem test_bvGet_BV7 :
    varAfter (exec (.bvGet 0 (.lit [true, false, true]) (.lit 2)) State.reset) 0 = some (.bit true) := by decide
theorem test_bvGet_BV8 :
    faultOf (exec (.bvGet 0 (.lit [true, false]) (.lit 2)) State.reset) = some (.indexOutOfRange 2 2) := by decide

/-- BV-10, in place. -/
theorem test_bvSet_BV10 :
    (after (exec (.bvSet 0 .inPlace (.lit 1) (.lit 1)) (st [(0, .vec [false, false, false])]))).vars
      = [(0, .vec [false, true, false])] := by decide
theorem test_bvSet_BV11 :
    faultOf (exec (.bvSet 0 .inPlace (.lit 3) (.lit 1)) (st [(0, .vec [false, false, false])]))
      = some (.indexOutOfRange 3 3) := by decide

theorem test_bvOfSize_BV1 :
    varAfter (exec (.bvOfSize 0 (.lit 3)) State.reset) 0 = some (.vec [false, false, false]) := by decide
theorem test_bvOfSize_no_value : refusalOf (exec (.bvOfSize 0 (.var 9)) State.reset) = some (.noValue 9) := by decide

/-! ## The units -/

/-- BV-31. -/
theorem test_parityXorUnit_BV31 :
    parityXorUnit (bus 4 [true, true, false, true]) (bus 4 [true, false, false, true])
      = { x := bus 4 [false, true, false, false], parityA := true } := by decide
theorem test_encoderUnit_EN2 : busBytes (encoderUnit (layoutOf 1) 0xFF) = [0xEE, 0x1E] := by decide +kernel
/-- DE-11: the frame 0x55 0x07 as the bus value 0x0755. -/
theorem test_decoderUnit_DE11 :
    decoderUnit (layoutOf 1) 0x0755 = { dataOut := 0x74, status := 0b01 } := by decide +kernel
/-- SY-6: all ones against all zeros. -/
theorem test_syndromeUnit_SY6 :
    syndromeUnit (layoutOf 1) 0x1FFF 0 = { syndrome := 0b1111, globalMismatch := true } := by decide +kernel

/-! ## Every row of the opcode table runs as the first instruction after reset -/

theorem test_every_code_runs_after_reset :
    ∀ w, 1 ≤ w → w ≤ 13 → goesOn (step (State.reset.withFetchWord 4 w)) = true := by decide +kernel

/-! ## Witnesses: a state and operands that meet the hypotheses of each statement -/

theorem test_witness_LayoutConstructsTheSizes :
    readSize .default State.reset = .ok 1 ∧ readSize (.var 0) (st [(0, .nat 31)]) = .ok 31 := by decide
theorem test_witness_LayoutRefusesBlockSizeBelowOne :
    readSize (.lit 0) State.reset = .ok 0 ∧ readSize (.var 0) (st [(0, .nat 0)]) = .ok 0 := by decide
/-- Also for every other statement whose only hypothesis is a layout that LAYOUT returns (the linearity of ENCODE and the
unit statements). -/
theorem test_witness_GroupPositionsAreTheFirstPowersOfTwo : (layoutOf 1).wf = true ∧ (layoutOf 31).wf = true := by
  decide +kernel
theorem test_witness_DataIndexInvertsDataPosition :
    (layoutOf 2).wf = true ∧ 15 < (layoutOf 2).d ∧ 21 < (layoutOf 2).T ∧ isData 21 = true ∧
    encodeBlock (layoutOf 2) [0x61, 0x62] = .ok [0x0F, 0x4D, 0x18] ∧ (layoutOf 2).dpos[15]? = some 21 := by decide +kernel
theorem test_witness_RepositoryFormulaDiffersAtTenBlockSizes : 1 ≤ 1 ∧ 31 < 9000 ∧ 8999 < 9000 := by decide
theorem test_witness_DecodeOfEncodeIsTheInstruction :
    Instr.wellFormed (.decode 3 2 (.lit [0x55, 0x0F])) = true ∧ Instr.wellFormed (.layout .default) = true := by decide
theorem test_witness_EncodeOfDecodeIsTheBytes :
    decodeInstr [0x0B, 0x00, 0x02, 0x01, 0x03, 0x00, 0x01, 0x0D] = .ok (.bvSet 0 .inPlace (.var 3) (.lit 1), [0x0D]) := by
  decide
theorem test_witness_ReservedOperationCodesAreRefused :
    ({ State.reset with program := [0x0, 0x1] } : State).program = 0x0 :: [0x1] ∧
    ({ State.reset with program := [0xE] } : State).program = 0xE :: [] ∧
    ({ State.reset with program := [0xF] } : State).program = 0xF :: [] := by decide
/-- One program whose line goes on, one that faults and one that is refused. -/
theorem test_witness_StepRunsTheDecodedInstruction :
    decodeInstr [0x0C, 0x00, 0x00, 0x03] = .ok (.bvOfSize 0 (.lit 3), []) ∧
    goesOn (exec (.bvOfSize 0 (.lit 3)) State.reset) = true ∧
    decodeInstr [0x0A, 0x00, 0x00, 0x00, 0x0D] = .ok (.bvGet 0 .zeros (.lit 13), []) ∧
    faultOf (exec (.bvGet 0 .zeros (.lit 13)) State.reset) = some (.indexOutOfRange 13 13) ∧
    decodeInstr [0x0D, 0x01, 0x00] = .ok (.layout (.lit 0), []) ∧
    refusalOf (exec (.layout (.lit 0)) State.reset) = some (.invalidBlockSize 0) := by decide
theorem test_witness_NoLineLeftEndsTheProgram : State.reset.program = [] := by decide
theorem test_witness_ProgramsEndWithinTheirLength :
    goesOn (Host.Core.run Sys2Proof.core 2 { State.reset with program := [0x0D, 0x00, 0x01, 0x00, 0x00] }) = true := by
  decide +kernel
theorem test_witness_OperandsReadTheirForms :
    let s := st [(0, .bytes [1]), (1, .vec [true]), (2, .nat 2), (3, .bit true), (4, .status .noError), (6, .nat 0),
      (7, .nat 1)]
    s.readVar 0 = some (.bytes [1]) ∧ s.readVar 1 = some (.vec [true]) ∧ s.readVar 2 = some (.nat 2) ∧
      s.readVar 3 = some (.bit true) ∧ s.readVar 4 = some (.status .noError) ∧ s.readVar 5 = none ∧
      s.readVar 6 = some (.nat 0) ∧ s.readVar 7 = some (.nat 1) := by decide
theorem test_witness_BvOfSizeIsZeroFilled :
    readNat (.lit 0) State.reset = .ok 0 ∧ readNat (.var 1) (st [(1, .nat 3)]) = .ok 3 := by decide
theorem test_witness_BvFromBytesTakesBitsInLittleOrder :
    readBytes .zeros State.reset.layout.OB State.reset = .ok [0, 0] ∧
    readBytes (.lit []) State.reset.layout.OB State.reset = .ok [] := by decide
/-- The last element, and the first index past it. -/
theorem test_witness_BvGetReadsTheElementOrFaults :
    readVec (.lit [true, false]) State.reset = .ok [true, false] ∧ readNat (.lit 1) State.reset = .ok 1 ∧
    [true, false][1]? = some false ∧ readNat (.lit 2) State.reset = .ok 2 ∧ 2 ≥ [true, false].length := by decide
theorem test_witness_BvSetWritesTheElementOrFaults :
    readVec (TargetOperand.toVec 0 .inPlace) (st [(0, .vec [true, false])]) = .ok [true, false] ∧
    readNat (.lit 1) State.reset = .ok 1 ∧ readBit (.lit 1) State.reset = .ok true ∧ 1 < [true, false].length ∧
    readNat (.lit 2) State.reset = .ok 2 ∧ 2 ≥ [true, false].length ∧ 2 ≤ 2 ∧
    (st [(0, .vec [true, false]), (1, .nat 2)]).readVar 1 = some (.nat 2) := by decide
theorem test_witness_BvSelectWhereKeepsTheSelectedElements :
    readVec .zeros State.reset = .ok (List.replicate 13 false) := by decide
theorem test_witness_BvPadToExtendsWithZeros :
    readVec (.lit [true, true]) State.reset = .ok [true, true] ∧ readNat (.lit 2) State.reset = .ok 2 ∧
    [true, true].length ≤ 2 ∧ readNat (.lit 1) State.reset = .ok 1 ∧ 1 < [true, true].length := by decide
theorem test_witness_BvXorIsElementWiseOrFaults :
    readVec (.lit []) State.reset = .ok [] ∧ readVec (.lit [true]) State.reset = .ok [true] ∧
    ([] : Bits).length = ([] : Bits).length ∧ ([] : Bits).length ≠ [true].length := by decide
theorem test_witness_BvParityIsOddPopcount : readVec (.lit []) State.reset = .ok [] := by decide
theorem test_witness_BvToBytesPacksBitsInLittleOrder :
    readVec (.lit (List.replicate 9 true)) State.reset = .ok (List.replicate 9 true) := by decide
theorem test_witness_XorAndParityLaws :
    bvXor [true] [false] = .ok [true] ∧ bvXor [true] [true] = .ok [false] ∧ bvPadTo [true] 2 = .ok [true, false] := by
  decide
theorem test_witness_EncodeWritesTheCodeword :
    readBytes .zeros State.reset.layout.s State.reset = .ok [0] ∧ State.reset.layout.wf = true ∧
    ([0] : Bytes).length = State.reset.layout.s ∧
    readBytes (.lit [0x74, 0x00]) State.reset.layout.s State.reset = .ok [0x74, 0x00] ∧
    ([0x74, 0x00] : Bytes).length ≠ State.reset.layout.s := by decide
theorem test_witness_EncodeIsLinear :
    (layoutOf 1).wf = true ∧ encodeBlock (layoutOf 1) [0x01] = .ok [0x0F, 0x00] ∧
    encodeBlock (layoutOf 1) [0x80] = .ok [0x11, 0x11] := by decide +kernel
theorem test_witness_GroupBitsAreParitiesOfDataBits :
    (layoutOf 1).wf = true ∧ encodeBlock (layoutOf 1) [0x74] = .ok [0x55, 0x0F] ∧ 3 < (layoutOf 1).k := by decide +kernel
theorem test_witness_SyndromeComparesTheGroups :
    State.reset.layout.wf = true ∧ readVec .zeros State.reset = .ok (List.replicate 13 false) ∧
    (List.replicate 13 false).length = State.reset.layout.T := by decide
theorem test_witness_SyndromeRefusesOtherLengths :
    readVec (.lit [true]) State.reset = .ok [true] ∧ [true].length ≠ State.reset.layout.T ∧
    readVec .zeros State.reset = .ok (List.replicate 13 false) ∧
    (List.replicate 13 false).length = State.reset.layout.T := by decide
theorem test_witness_SyndromeIsTheXorOfErrorPositions :
    (layoutOf 1).wf = true ∧ (List.replicate 8 true).length = (layoutOf 1).d ∧ [0, 12].Nodup ∧
    ∀ p ∈ [0, 12], p < (layoutOf 1).T := by decide
theorem test_witness_DecodeAlwaysReturnsAResult :
    State.reset.layout.wf = true ∧ readBytes .zeros State.reset.layout.OB State.reset = .ok [0, 0] ∧
    ([0, 0] : Bytes).length ≥ State.reset.layout.OB := by decide
/-- One frame for each row of the table: DE-16, DE-11, DE-25, DE-17 and DE-0. -/
theorem test_witness_DecodeFollowsTheDecisionTable :
    let n := fun c => receivedSyndrome State.reset.layout (bufBit c)
    let g := fun c => oddOnes (List.range State.reset.layout.T) (bufBit c)
    (n [0x55, 0x0F] = 0 ∧ g [0x55, 0x0F] = false) ∧ (n [0x55, 0x07] = 11 ∧ g [0x55, 0x07] = true) ∧
    (n [0x7D, 0x0D] = 15 ∧ g [0x7D, 0x0D] = true) ∧ (n [0x45, 0x07] = 15 ∧ g [0x45, 0x07] = false) ∧
    (n [0x54, 0x0F] = 0 ∧ g [0x54, 0x0F] = true) := by decide +kernel
theorem test_witness_DecodeIgnoresPaddingAndTrailingBytes :
    readBytes (.lit [0x55, 0x0F]) State.reset.layout.OB State.reset = .ok [0x55, 0x0F] ∧
    readBytes (.lit [0x55, 0xEF, 0xFF]) State.reset.layout.OB State.reset = .ok [0x55, 0xEF, 0xFF] ∧
    ∀ p, p < State.reset.layout.T → bufBit [0x55, 0x0F] p = bufBit [0x55, 0xEF, 0xFF] p := by decide +kernel
theorem test_witness_DecodeReturnsWhatWasEncoded :
    encodeBlock State.reset.layout [0x74] = .ok [0x55, 0x0F] ∧
    readBytes (.lit [0x55, 0x6F]) State.reset.layout.OB State.reset = .ok (flipFrame [0x55, 0x0F] [13, 14]) := by
  decide +kernel
/-- DE-1 (the first position), DE-12 (the last) and DE-23 (one codeword position and one of the padding). -/
theorem test_witness_DecodeCorrectsEverySingleError :
    encodeBlock State.reset.layout [0x74] = .ok [0x55, 0x0F] ∧
    [1].filter (· < State.reset.layout.T) = [1] ∧
    readBytes (.lit [0x57, 0x0F]) State.reset.layout.OB State.reset = .ok (flipFrame [0x55, 0x0F] [1]) ∧
    [12].filter (· < State.reset.layout.T) = [12] ∧
    readBytes (.lit [0x55, 0x1F]) State.reset.layout.OB State.reset = .ok (flipFrame [0x55, 0x0F] [12]) ∧
    [11, 13].filter (· < State.reset.layout.T) = [11] ∧
    readBytes (.lit [0x55, 0x27]) State.reset.layout.OB State.reset = .ok (flipFrame [0x55, 0x0F] [11, 13]) := by
  decide +kernel
theorem test_witness_DecodeReportsAFlipOfTheGlobalBit :
    encodeBlock State.reset.layout [0x74] = .ok [0x55, 0x0F] ∧
    readBytes (.lit [0x54, 0x0F]) State.reset.layout.OB State.reset = .ok (flipFrame [0x55, 0x0F] [0]) := by
  decide +kernel
/-- DE-19 (neither flip on a DATA position) and DE-18. -/
theorem test_witness_DecodeDetectsEveryDoubleError :
    encodeBlock State.reset.layout [0x74] = .ok [0x55, 0x0F] ∧
    [1, 2].filter (· < State.reset.layout.T) = [1, 2] ∧ isData 1 = false ∧ isData 2 = false ∧
    readBytes (.lit [0x53, 0x0F]) State.reset.layout.OB State.reset = .ok (flipFrame [0x55, 0x0F] [1, 2]) ∧
    [0, 11].filter (· < State.reset.layout.T) = [0, 11] ∧
    readBytes (.lit [0x54, 0x07]) State.reset.layout.OB State.reset = .ok (flipFrame [0x55, 0x0F] [0, 11]) := by
  decide +kernel
/-- DE-25, DE-27, DE-24, DE-28, and four flips whose exclusive or is 4: one set for each clause; and two sets on either
side of the bound `T = 13`. -/
theorem test_witness_DecodeOfThreeOrMoreErrors :
    encodeBlock State.reset.layout [0x74] = .ok [0x55, 0x0F] ∧
    (∀ E ∈ [[3, 5, 9], [3, 5, 6], [1, 2, 4], [1, 2, 4, 7], [1, 2, 3, 4], [1, 4, 8], [1, 5, 8]],
      E.filter (· < State.reset.layout.T) = E ∧ E.Nodup ∧ 3 ≤ E.length) ∧
    positionsXor [3, 5, 9] = 15 ∧ positionsXor [3, 5, 6] = 0 ∧ positionsXor [1, 2, 4] = 7 ∧
    positionsXor [1, 2, 4, 7] = 0 ∧ positionsXor [1, 2, 3, 4] = 4 ∧
    positionsXor [1, 4, 8] = State.reset.layout.T ∧ positionsXor [1, 5, 8] = State.reset.layout.T - 1 ∧
    readBytes (.lit [0x7D, 0x0D]) State.reset.layout.OB State.reset = .ok (flipFrame [0x55, 0x0F] [3, 5, 9]) := by
  decide +kernel
theorem test_witness_InvalidLengthIsAnErrorResult :
    readBytes (.lit []) State.reset.layout.s State.reset = .ok [] ∧
    ([] : Bytes).length ≠ State.reset.layout.s ∧
    readBytes (.lit [0x55]) State.reset.layout.OB State.reset = .ok [0x55] ∧
    ([0x55] : Bytes).length < State.reset.layout.OB ∧
    readVec (.lit [true, true]) State.reset = .ok [true, true] ∧ readNat (.lit 1) State.reset = .ok 1 ∧
    1 < [true, true].length := by decide
theorem test_witness_FaultsComeOnlyFromDirectBitVectorCalls :
    State.reset.layout.wf = true ∧
    faultOf (exec (.bvGet 0 (.lit []) (.lit 0)) State.reset) = some (.indexOutOfRange 0 0) ∧
    faultOf (exec (.bvSet 0 (.lit []) (.lit 0) (.lit 1)) State.reset) = some (.indexOutOfRange 0 0) ∧
    faultOf (exec (.bvXor 0 (.lit []) (.lit [true])) State.reset) = some (.lengthMismatch 0 1) := by decide
theorem test_witness_AnErrorHasNoOtherEffect :
    goesOn (exec (.encode 0 (.lit [])) State.reset) = true ∧
    (after (exec (.encode 0 (.lit [])) State.reset)).errors ≠ State.reset.errors := by decide
theorem test_witness_OperationsWriteOnlyTheirResults :
    goesOn (exec (.decode 1 2 .zeros) (st [(0, .nat 5)])) = true ∧ 0 ∉ Instr.dests (.decode 1 2 .zeros) ∧
    goesOn (exec (.layout (.lit 2)) (st [(0, .nat 5)])) = true := by
  decide +kernel
theorem test_witness_OnlyLayoutChangesTheLayout :
    goesOn (step { State.reset with program := [0x0D, 0x01, 0x02] }) = true ∧
    (after (step { State.reset with program := [0x0D, 0x01, 0x02] })).layout ≠ State.reset.layout := by decide +kernel

/-- A good state with a variable, a recorded error and a line to run. -/
def goodState : State :=
  { State.reset with
    vars := [(0, .bytes [0x55, 0x0F])], program := [0x01, 0x00, 0x00], line := 2, errors := [(1, .invalidLength 2 1)] }

theorem test_witness_StepKeepsTheInvariant : Inv goodState ∧ goesOn (step goodState) = true :=
  ⟨⟨by decide, by decide, ⟨by decide, by decide⟩, by unfold errorsAreLengths; decide⟩, by decide +kernel⟩

/-- Two states that differ in a variable the operation does not read; one operation that goes on, one that faults, one
that is refused and one that returns an error. -/
theorem test_witness_ResultsDependOnlyOnTheOperands :
    let s1 := st [(0, .vec [true]), (1, .nat 1)]
    let s2 := st [(0, .vec [true]), (1, .nat 2)]
    s1.layout = s2.layout ∧ s1 ≠ s2 ∧ s1.readVar 0 = s2.readVar 0 ∧
    Instr.sources (.bvParity 5 (.var 0)) = [0] ∧ goesOn (exec (.bvParity 5 (.var 0)) s1) = true ∧
    Instr.sources (.bvGet 5 (.var 0) (.lit 1)) = [0] ∧
    faultOf (exec (.bvGet 5 (.var 0) (.lit 1)) s1) = some (.indexOutOfRange 1 1) ∧
    refusalOf (exec (.encode 5 (.var 0)) s1) = some (.otherKind 0) ∧
    (after (exec (.bvPadTo 5 (.var 0) (.lit 0)) s1)).errors = [(1, .invalidLength 0 1)] := by decide
theorem test_witness_IndependentOperationsCommute :
    let s := st [(0, .vec [true])]
    let i : Instr := .bvParity 5 (.var 0)
    let j : Instr := .bvToBytes 6 (.var 0)
    varsWf s.vars = true ∧ (∀ x ∈ i.dests, x ∉ j.dests ∧ x ∉ j.sources) ∧ (∀ x ∈ j.dests, x ∉ i.sources) ∧
      goesOn (exec i s) = true ∧ goesOn (exec j (after (exec i s))) = true ∧
      (after (exec j (after (exec i s)))).errors = s.errors := by decide
theorem test_witness_OperationsAreIdempotent :
    let s := st [(0, .bytes [0x55, 0x0F])]
    let i : Instr := .decode 1 2 (.var 0)
    varsWf s.vars = true ∧ i.wellFormed = true ∧ (∀ x ∈ i.dests, x ∉ i.sources) ∧ goesOn (exec i s) = true ∧
      (after (exec i s)).errors = s.errors := by decide +kernel

end Sys2Proof.Tests
end

