-- ==== Sys2Proof/Proofs/PositionSets.lean ====
section
/-! The index sets of a layout: ascending, as many as the sizes say, and numbered by `didx` (10_state.md R26 to R28). -/

namespace Sys2Proof.Machine

/-! ## Selections from the positions below a bound -/

/-- Positions selected from `0 .. n-1` stand in ascending order. -/
theorem filter_range_ascending (n : Nat) (pred : Nat → Bool) : ((List.range n).filter pred).Pairwise (· < ·) :=
  List.pairwise_lt_range.filter pred

/-- A selected position stands after exactly the selected positions below it. -/
theorem filter_range_getElem?_of_pred {n p : Nat} {pred : Nat → Bool} (hp : p < n) (hpred : pred p = true) :
    ((List.range n).filter pred)[((List.range p).filter pred).length]? = some p := by
  obtain ⟨m, rfl⟩ : ∃ m, n = p + (m + 1) := ⟨n - p - 1, by omega⟩
  have hfirst : (List.range (m + 1)).map (p + ·) = p :: (List.range m).map fun i => p + (i + 1) := by
    simp [List.range_succ_eq_map]
  rw [List.range_add, hfirst, List.filter_append, List.getElem?_append_right (Nat.le_refl _)]
  simp [hpred]

/-- Where the powers of two below `n` are those with exponent below `k`, they are `2^0 .. 2^(k-1)` in this order. -/
theorem filter_range_isGroup {n k : Nat} (h : ∀ i, 2 ^ i < n ↔ i < k) :
    (List.range n).filter isGroup = (List.range k).map (2 ^ ·) := by
  refine List.Pairwise.eq_of_mem_iff (filter_range_ascending n isGroup) ?_ fun p => ?_
  · exact List.pairwise_lt_range.map _ fun i j hij => Nat.pow_lt_pow_right (by decide) hij
  · simp only [List.mem_filter, List.mem_range, List.mem_map, isGroup, isPow2_iff]
    constructor
    · rintro ⟨hp, i, rfl⟩
      exact ⟨i, (h i).1 hp, rfl⟩
    · rintro ⟨i, hi, rfl⟩
      exact ⟨(h i).2 hi, i, rfl⟩

/-- Every position but 0 is a GROUP or a DATA position, and none is both. -/
theorem isData_eq_not_isGroup {p : Nat} (hp : 0 < p) : isData p = !isGroup p := by simp [isData, isGroup, hp]

/-- The roles share out the positions `0 .. n`: all but position 0 are DATA or GROUP. -/
theorem data_count_add_group_count (n : Nat) :
    ((List.range (n + 1)).filter isData).length + ((List.range (n + 1)).filter isGroup).length = n := by
  induction n with
  | zero => decide
  | succ n ih =>
    rw [List.range_succ, List.filter_append, List.filter_append]
    cases hg : isGroup (n + 1) <;>
      simp [hg, isData_eq_not_isGroup (Nat.succ_pos n)] <;> omega

/-- Where `k` powers of two stand below `n`, the DATA positions are the rest but for position 0. -/
theorem data_count {n k : Nat} (hn : 0 < n) (h : ∀ i, 2 ^ i < n ↔ i < k) :
    ((List.range n).filter isData).length = n - 1 - k := by
  have hsum := data_count_add_group_count (n - 1)
  rw [Nat.sub_add_cancel hn, filter_range_isGroup h, List.length_map, List.length_range] at hsum
  omega

/-- The powers of two below a DATA position are those up to its leading bit. -/
theorem two_pow_lt_data_iff {p : Nat} (hp : isData p = true) (i : Nat) : 2 ^ i < p ↔ i < Nat.log2 p + 1 := by
  obtain ⟨hpos, hne⟩ := (isData_iff p).1 hp
  rw [Nat.lt_succ_iff, Nat.le_log2 hpos.ne']
  exact ⟨Nat.le_of_lt, fun hle => lt_of_le_of_ne hle (hne i).symm⟩

/-- `didx` counts the DATA positions below its argument. -/
theorem didx_eq_data_count {p : Nat} (hp : isData p = true) : didx p = ((List.range p).filter isData).length := by
  rw [data_count ((isData_iff p).1 hp).1 (two_pow_lt_data_iff hp), didx]
  omega

/-! ## The index sets of a layout -/

theorem dpos_ascending (L : Layout) : L.dpos.Pairwise (· < ·) := filter_range_ascending L.T isData

theorem cover_ascending (L : Layout) (i : Nat) : (L.cover i).Pairwise (· < ·) := filter_range_ascending L.T _

/-- A DATA position of the word stands in DPOS at its own number. -/
theorem dpos_getElem?_didx {L : Layout} {p : Nat} (hp : p < L.T) (hdata : isData p = true) :
    L.dpos[didx p]? = some p := by
  rw [didx_eq_data_count hdata]
  exact filter_range_getElem?_of_pred hp hdata

/-- The number of the DATA position at `j` in DPOS is `j`. -/
theorem didx_of_dpos_getElem? {L : Layout} {j p : Nat} (h : L.dpos[j]? = some p) : didx p = j := by
  obtain ⟨hT, hdata⟩ := (mem_dpos L p).1 (List.mem_of_getElem? h)
  have hp := dpos_getElem?_didx hT hdata
  obtain ⟨hlt, -⟩ := List.getElem?_eq_some_iff.1 hp
  exact (List.getElem?_inj hlt (dpos_nodup L)).1 (hp.trans h.symm)

variable {L : Layout}

/-- The group positions of the word are those with a group index. -/
theorem wf_two_pow_lt_iff (h : L.wf = true) (i : Nat) : 2 ^ i < L.T ↔ i < L.k :=
  ⟨wf_group_index h, wf_group_lt h⟩

theorem wf_gpos (h : L.wf = true) : L.gpos = (List.range L.k).map (2 ^ ·) :=
  filter_range_isGroup (wf_two_pow_lt_iff h)

theorem wf_dpos_length (h : L.wf = true) : L.dpos.length = L.d := by
  have hT := wf_T h
  have hcount : L.dpos.length = L.T - 1 - L.k := data_count (by omega) (wf_two_pow_lt_iff h)
  omega

/-! ## What LAYOUT and ENCODE do with them -/

/-- LAYOUT of a size of at least 1 goes on with the layout of that size. -/
theorem exec_layout_of_pos {size : SizeOperand} {s : State} {n : Nat} (hread : readSize size s = .ok n)
    (hn : 1 ≤ n) : exec (.layout size) s = .next { s with layout := layoutOf n } := by
  have hc : constructLayout n = .ok (layoutOf n) := if_neg (Nat.not_lt.2 hn)
  simp [exec, execLayout, hread, hc]

/-- ENCODE returns a frame only for a block of `s` bytes. -/
theorem encodeBlock_ok_length {m c : Bytes} (h : encodeBlock L m = .ok c) : m.length = L.s := by
  by_contra hne
  simp [encodeBlock, hne] at h

/-- ENCODE carries data bit `j` at the `j`-th DATA position of its frame. -/
theorem encodeBlock_carries_data (h : L.wf = true) {m c : Bytes} (hc : encodeBlock L m = .ok c) {j p : Nat}
    (hp : L.dpos[j]? = some p) : Safety.bufBit c p = Safety.bufBit m j := by
  have hm := encodeBlock_ok_length hc
  rw [encodeBlock_of_length h hm, Except.ok.injEq] at hc
  obtain ⟨hj, rfl⟩ := List.getElem?_eq_some_iff.1 hp
  have hlen : (bvFromBytes m).length = L.dpos.length := by
    rw [bvFromBytes_length, hm, wf_dpos_length h, wf_d h]
  have hj8 : j < 8 * m.length := by rw [← bvFromBytes_length, hlen]; exact hj
  calc Safety.bufBit c L.dpos[j]
      = elem (codeword L (bvFromBytes m)) L.dpos[j] := by rw [← hc, bufBit_bvToBytes, elem]
    _ = elem (bvFromBytes m) j := by rw [codeword_data hlen hj, elem_eq_getElem]
    _ = Safety.bufBit m j := elem_bvFromBytes hj8

end Sys2Proof.Machine
end

