-- ==== Sys2Proof/Proofs/LayoutObligations.lean ====
section
/-! The statements on the layout's sizes and index sets. -/

namespace Sys2Proof.Proofs

open Sys2Proof.Machine Sys2Proof.Safety

/-- Settles O1: the layout is `layoutOf n`, whose `k` is the least number that meets the condition of R22. -/
theorem layoutConstructsTheSizes : Obligations.LayoutConstructsTheSizes := by
  intro s size n hread hn
  have hwf := layoutOf_wf hn
  have hT := wf_T hwf
  have hOB := wf_OB hwf
  refine ⟨layoutOf n, exec_layout_of_pos hread hn, rfl, rfl, ⟨?_, fun j hj => ?_⟩, hT, hOB, ?_, ?_⟩
  · exact parityBits_enough (8 * n)
  · exact Nat.le_of_not_lt fun hlt => Nat.not_lt.2 hj (parityBits_least (8 * n) j hlt)
  · omega
  · omega

/-- Settles O5: GPOS lists the powers of two with a group index, and the roles share out the positions. -/
theorem groupPositionsAreTheFirstPowersOfTwo : Obligations.GroupPositionsAreTheFirstPowersOfTwo := by
  intro L hwf
  have hT := wf_T hwf
  have hd := wf_dpos_length hwf
  refine ⟨wf_gpos hwf, fun i => wf_group_lt hwf, wf_T_le hwf, ?_, by omega, hd⟩
  simp [wf_gpos hwf]

/-- Settles O6: DIDX counts the DATA positions below its argument, so it gives each its number in DPOS. -/
theorem dataIndexInvertsDataPosition : Obligations.DataIndexInvertsDataPosition := by
  refine ⟨fun L hwf => ⟨dpos_ascending L, wf_dpos_length hwf, mem_dpos L, fun j hj => ?_, ?_, ?_⟩, ?_, ?_⟩
  · have hget := List.getElem?_eq_getElem ((wf_dpos_length hwf).symm ▸ hj)
    exact ⟨_, hget, didx_of_dpos_getElem? hget⟩
  · exact fun p => dpos_getElem?_didx
  · exact fun m c hc j p => encodeBlock_carries_data hwf hc
  · decide
  · decide

/-- Settles O7: membership in a cover is that of `mem_cover`, with DATA and the bit written out. -/
theorem coverHoldsTheDataPositionsOfItsGroup : Obligations.CoverHoldsTheDataPositionsOfItsGroup := by
  refine ⟨fun L i p => ⟨cover_ascending L i, ?_, fun hp => ((mem_cover L i p).1 hp).2.1⟩, ?_⟩
  · rw [mem_cover, isData_iff, ← not_exists, Nat.testBit_eq_decide_div_mod_eq, Nat.shiftRight_eq_div_pow,
      decide_eq_true_eq]
    exact ⟨fun ⟨hT, ⟨hpos, hpow⟩, hbit⟩ => ⟨hpos, hT, hpow, hbit⟩,
      fun ⟨hpos, hT, hpow, hbit⟩ => ⟨hT, ⟨hpos, hpow⟩, hbit⟩⟩
  · decide

end Sys2Proof.Proofs
end

