-- ==== Sys2Proof/Proofs/CodewordBits.lean ====
section
/-! What DECODE takes from a frame: the codeword positions, and nothing else (43_decoder.md R181, 30_encoding.md R63). -/

namespace Sys2Proof.Machine

variable {L : Layout}

/-- The frame of a layout has a bit for every codeword position. -/
theorem wf_T_le_frame_bits (h : L.wf = true) {c : Bytes} (hc : L.OB ≤ c.length) : L.T ≤ 8 * c.length := by
  have hOB := wf_OB h
  omega

theorem codewordOf_length (h : L.wf = true) {c : Bytes} (hc : L.OB ≤ c.length) : (codewordOf L c).length = L.T := by
  simp [codewordOf, wf_T_le_frame_bits h hc]

/-- Codeword position `p` of a frame is its bit `p` in the little order. -/
theorem codewordOf_getElem? (h : L.wf = true) {c : Bytes} (hc : L.OB ≤ c.length) {p : Nat} (hp : p < L.T) :
    (codewordOf L c)[p]? = some (Safety.bufBit c p) := by
  rw [codewordOf, List.getElem?_take_of_lt hp]
  exact bvFromBytes_getElem? (hp.trans_le (wf_T_le_frame_bits h hc))

/-- Frames that agree at the codeword positions have one codeword vector, whatever their padding and trailing bytes. -/
theorem codewordOf_congr (h : L.wf = true) {c₁ c₂ : Bytes} (h₁ : L.OB ≤ c₁.length) (h₂ : L.OB ≤ c₂.length)
    (hbits : ∀ p, p < L.T → Safety.bufBit c₁ p = Safety.bufBit c₂ p) : codewordOf L c₁ = codewordOf L c₂ := by
  have hlen₁ := codewordOf_length h h₁
  refine List.ext_getElem? fun p => ?_
  by_cases hp : p < L.T
  · rw [codewordOf_getElem? h h₁ hp, codewordOf_getElem? h h₂ hp, hbits p hp]
  · rw [List.getElem?_eq_none (by omega), List.getElem?_eq_none (by rw [codewordOf_length h h₂]; omega)]

/-- DECODE sees a frame of at least `OB` bytes through its codeword vector only. -/
theorem decodeFrame_congr {c₁ c₂ : Bytes} (h₁ : L.OB ≤ c₁.length) (h₂ : L.OB ≤ c₂.length)
    (hcode : codewordOf L c₁ = codewordOf L c₂) : decodeFrame L c₁ = decodeFrame L c₂ := by
  simp only [decodeFrame, Nat.not_lt.2 h₁, Nat.not_lt.2 h₂, if_false, hcode]

/-- DECODE of an operand that is read is the frame's decoding, delivered. -/
theorem exec_decode_of_read {x y : Nat} {o : BytesOperand} {c : Bytes} {s : State}
    (hread : readBytes o s.layout.OB s = .ok c) :
    exec (.decode x y o) s
      = deliver ((decodeFrame s.layout c).map fun res => [(x, .bytes res.1), (y, .status res.2)]) s := by
  simp [exec, execDecode, hread]

end Sys2Proof.Machine
end

