-- ==== Sys2Proof/Proofs/ReservedCodes.lean ====
section
/-! A byte that names no operation is refused (30_encoding.md R70). -/

namespace Sys2Proof.Machine

/-- A step whose first byte names no operation is refused by that byte. -/
theorem step_refused_of_no_operation {s : State} {b : Byte} {rest : Bytes} (hprog : s.program = b :: rest)
    (hb : parseOperands b.toNat rest = none) : step s = .refused (.reservedOperation b) := by
  have hdec : decodeInstr (b :: rest) = .error (.reservedOperation b) := by simp [decodeInstr, hb]
  have hfetch : fetch s.program = .error (.reservedOperation b) := by simp [hprog, fetch, hdec]
  simp [step, hfetch]

/-- The codes of R70 stand in no row of the operation table. -/
theorem parseOperands_reserved {b : Byte} (hb : b = 0x0 ∨ b = 0xE ∨ b = 0xF) (rest : Bytes) :
    parseOperands b.toNat rest = none := by
  rcases hb with rfl | rfl | rfl
  · rfl
  · rfl
  · rfl

end Sys2Proof.Machine
end

