-- ==== Sys2Proof/Proofs/EncodingObligations.lean ====
section
/-! The statements on the frame's padding, the reserved operation codes and the status codes. -/

namespace Sys2Proof.Proofs

open Sys2Proof.Machine Sys2Proof.Safety

/-- Settles O37: both frames have one codeword vector, which is all that DECODE takes from them. -/
theorem decodeIgnoresPaddingAndTrailingBytes : Obligations.DecodeIgnoresPaddingAndTrailingBytes := by
  intro s x y o1 o2 c1 c2 hwf hread1 hread2 hlen1 hlen2 hbits
  have hcode : codewordOf s.layout c1 = codewordOf s.layout c2 := codewordOf_congr hwf hlen1 hlen2 hbits
  rw [exec_decode_of_read hread1, exec_decode_of_read hread2, decodeFrame_congr hlen1 hlen2 hcode]

/-- Settles O12: no row of the operation table has one of these codes, so the line is not fetched. -/
theorem reservedOperationCodesAreRefused : Obligations.ReservedOperationCodesAreRefused :=
  fun _ rest _ hb hprog => step_refused_of_no_operation hprog (parseOperands_reserved hb rest)

/-- Settles O44: the three codes by their definition, and that none is 11 by the three statuses. -/
theorem statusCodesLeaveOutTheReservedOne : Obligations.StatusCodesLeaveOutTheReservedOne := by
  refine ⟨rfl, rfl, rfl, fun st => ?_⟩
  cases st with
  | noError => decide
  | singleErrorCorrected => decide
  | doubleErrorDetected => decide

end Sys2Proof.Proofs
end

