-- ==== Sys2Proof/Proofs/BitVectorLaws.lean ====
section
/-! The BitVector functions through the elements of their results (40_bitvector.md R103 to R109, R111, R112). -/

namespace Sys2Proof.Machine

/-! ## Equality by elements -/

/-- Two vectors of one length with the same elements are equal. -/
theorem eq_of_elem {v w : Bits} (hl : v.length = w.length) (h : ∀ i, elem v i = elem w i) : v = w := by
  refine List.ext_getElem hl fun i hv hw => ?_
  rw [← elem_eq_getElem hv, ← elem_eq_getElem hw, h i]

/-- A bit of a buffer is the bit of the byte that holds it. -/
theorem bufBit_of_getElem? {buf : Bytes} {i : Nat} {byte : Byte} (h : buf[i / 8]? = some byte) :
    Safety.bufBit buf i = byte.toNat.testBit (i % 8) := by
  rw [Safety.bufBit, List.getD_eq_getElem?_getD, h, Option.getD_some, BitVec.testBit_toNat]

/-- Two buffers of one length with the same bits are equal. -/
theorem eq_of_bufBit {a b : Bytes} (hl : a.length = b.length)
    (h : ∀ i, Safety.bufBit a i = Safety.bufBit b i) : a = b := by
  refine List.ext_getElem hl fun j ha hb => BitVec.eq_of_getLsbD_eq fun i hi => ?_
  have hdiv : (8 * j + i) / 8 = j := by omega
  have hmod : (8 * j + i) % 8 = i := by omega
  have hbit := h (8 * j + i)
  simpa [Safety.bufBit, hdiv, hmod, ha, hb] using hbit

/-! ## One element -/

theorem bvGet_of_getElem? {v : Bits} {i : Nat} {b : Bool} (h : v[i]? = some b) : bvGet v i = .ok b := by
  obtain ⟨hlt, rfl⟩ := List.getElem?_eq_some_iff.1 h
  rw [bvGet_eq, dif_pos hlt]

theorem bvGet_of_ge {v : Bits} {i : Nat} (h : i ≥ v.length) :
    bvGet v i = .error (.indexOutOfRange i v.length) := if_pos h

theorem bvSet_of_lt {v : Bits} {i : Nat} (b : Bool) (h : i < v.length) : bvSet v i b = .ok (v.set i b) := by
  rw [bvSet_eq, if_pos h]

theorem bvSet_of_ge {v : Bits} {i : Nat} (b : Bool) (h : i ≥ v.length) :
    bvSet v i b = .error (.indexOutOfRange i v.length) := if_pos h

/-! ## Selecting -/

/-- A vector paired with its positions is the positions, each with its element. -/
theorem zipIdx_eq_map_elem (v : Bits) : v.zipIdx = (List.range v.length).map fun i => (elem v i, i) := by
  refine List.ext_getElem (by simp) fun i hz _ => ?_
  have hi : i < v.length := by simpa using hz
  simp [elem_eq_getElem hi]

/-- BV_SELECT_WHERE keeps or drops each element by its position. -/
theorem bvSelectWhere_eq_filter_zipIdx (v : Bits) (pred : Nat → Bool) :
    bvSelectWhere v pred = (v.zipIdx.filter fun bp => pred bp.2).map Prod.fst := by
  rw [zipIdx_eq_map_elem, List.filter_map, List.map_map]
  rfl

/-! ## Padding -/

/-- BV_PAD_TO answers the vector followed by zeros, and only for a length that is not below the vector's own. -/
theorem bvPadTo_ok_iff {v w : Bits} {n : Nat} :
    bvPadTo v n = .ok w ↔ v.length ≤ n ∧ w = v ++ bvOfSize (n - v.length) := by
  by_cases h : n < v.length
  · simp [bvPadTo, h]
  · simp [bvPadTo, h, bvOfSize, eq_comm, Nat.not_lt.1 h]

/-- BV_PAD_TO raises below the vector's own length. -/
theorem bvPadTo_of_lt {v : Bits} {n : Nat} (h : n < v.length) :
    bvPadTo v n = .error (.invalidLength n v.length) := if_pos h

/-- Zeros after a vector change none of its elements, which are 0 past the end. -/
theorem elem_append_bvOfSize (v : Bits) (n i : Nat) : elem (v ++ bvOfSize n) i = elem v i := by
  rcases Nat.lt_or_ge i v.length with h | h
  · exact List.getD_append _ _ _ _ h
  · rw [elem, elem, List.getD_append_right _ _ _ _ h, List.getD_eq_default _ _ h, bvOfSize,
      List.getD_eq_getElem?_getD, List.getElem?_getD_replicate_default_eq]

@[simp] theorem bvParity_bvOfSize (n : Nat) : bvParity (bvOfSize n) = false := by
  induction n with
  | zero => rfl
  | succ n ih => rw [bvOfSize, List.replicate_succ, bvParity_cons, Bool.false_xor, ← bvOfSize, ih]

/-! ## Exclusive or -/

/-- BV_XOR answers the element-wise exclusive or, and only for vectors of one length. -/
theorem bvXor_ok_iff {a b x : Bits} : bvXor a b = .ok x ↔ a.length = b.length ∧ x = List.zipWith xor a b := by
  by_cases h : a.length = b.length
  · simp [bvXor, h, eq_comm]
  · simp [bvXor, h]

/-- BV_XOR raises for vectors of different lengths. -/
theorem bvXor_of_length_ne {a b : Bits} (h : a.length ≠ b.length) :
    bvXor a b = .error (.lengthMismatch a.length b.length) := if_pos h

theorem zipWith_xor_self (a : Bits) : List.zipWith xor a a = bvOfSize a.length := by
  simp [List.zipWith_self, bvOfSize]

theorem zipWith_xor_assoc (a b c : Bits) :
    List.zipWith xor (List.zipWith xor a b) c = List.zipWith xor a (List.zipWith xor b c) := by
  refine List.ext_getElem (by simp [Nat.min_assoc]) fun i _ _ => ?_
  simp

/-- The parity of an element-wise exclusive or is that of the two parities. -/
theorem bvParity_zipWith_xor {a b : Bits} (h : a.length = b.length) :
    bvParity (List.zipWith xor a b) = xor (bvParity a) (bvParity b) := by
  induction a generalizing b with
  | nil => simp [List.length_eq_zero_iff.1 h.symm]
  | cons p a ih =>
    cases b with
    | nil => simp at h
    | cons q b =>
      rw [List.zipWith_cons_cons, bvParity_cons, bvParity_cons, bvParity_cons, ih (by simpa using h)]
      simp only [Bool.xor_assoc, Bool.xor_left_comm]

/-! ## Counting ones -/

/-- BV_PARITY says whether the number of ones is odd. -/
theorem bvParity_eq_odd_count (v : Bits) : bvParity v = decide (v.count true % 2 = 1) := by
  induction v with
  | nil => rfl
  | cons b v ih =>
    rw [bvParity_cons, ih]
    cases b with
    | false => simp
    | true => rcases Nat.mod_two_eq_zero_or_one (v.count true) with h | h <;> simp [h, Nat.add_mod]

/-! ## Parsing and serializing -/

/-- An element of a parsed buffer is that bit of the buffer, and 0 past the end of both. -/
theorem elem_bvFromBytes_eq_bufBit (buf : Bytes) (i : Nat) : elem (bvFromBytes buf) i = Safety.bufBit buf i := by
  rcases Nat.lt_or_ge i (8 * buf.length) with h | h
  · exact elem_bvFromBytes h
  · have hvec : (bvFromBytes buf).length ≤ i := by simpa using h
    have hbuf : buf.length ≤ i / 8 := by omega
    simp [elem, Safety.bufBit, List.getElem?_eq_none hvec, List.getElem?_eq_none hbuf]

/-- Serializing a parsed buffer gives it back. -/
theorem bvToBytes_bvFromBytes (buf : Bytes) : bvToBytes (bvFromBytes buf) = buf := by
  refine eq_of_bufBit ?_ fun i => ?_
  · rw [bvToBytes_length, bvFromBytes_length]
    omega
  · rw [bufBit_bvToBytes, ← elem, elem_bvFromBytes_eq_bufBit]

/-- Parsing a serialized vector gives it back, followed by zeros up to whole bytes. -/
theorem bvFromBytes_bvToBytes (v : Bits) :
    bvFromBytes (bvToBytes v) = v ++ bvOfSize (8 * ((v.length + 7) / 8) - v.length) := by
  refine eq_of_elem ?_ fun i => ?_
  · rw [bvFromBytes_length, bvToBytes_length, List.length_append, bvOfSize_length]
    omega
  · rw [elem_bvFromBytes_eq_bufBit, bufBit_bvToBytes, elem_append_bvOfSize, elem]

end Sys2Proof.Machine
end

