-- ==== Sys2Proof/Proofs/BitVectorExec.lean ====
section
/-! What each BitVector operation answers once its operands are read: its function's result, delivered
(40_bitvector.md R101 to R109). -/

namespace Sys2Proof.Machine

/-! ## Delivering a mapped result -/

theorem deliver_map_of_ok {α : Type} {r : Except OpError α} {a : α} (h : r = .ok a)
    (f : α → List (Nat × Value)) (s : State) : deliver (r.map f) s = .next (s.writeVars (f a)) := by
  rw [h]
  rfl

theorem deliver_map_of_error {α : Type} {r : Except OpError α} {e : OpError} (h : r = .error e)
    (f : α → List (Nat × Value)) (s : State) : deliver (r.map f) s = raise e s := by
  rw [h]
  rfl

/-- A number that is no bit is refused where BV_SET's value is read. -/
theorem readBit_notABit {o : BitOperand} {n : Nat} {s : State} (hn : 2 ≤ n)
    (ho : o = .lit n ∨ ∃ y, o = .var y ∧ s.readVar y = some (.nat n)) : readBit o s = .error (.notABit n) := by
  rcases ho with rfl | ⟨y, rfl, hy⟩
  · exact bitOfNat_notABit hn
  · have hread : readAs asNat y s = .ok n := readAs_ok hy rfl
    simp [readBit, hread, bitOfNat_notABit hn]

/-! ## The operations -/

variable {s : State} {x n i : Nat} {v w : Bits} {buf : Bytes} {b : Bool}
  {ov ow : VecOperand} {on : NatOperand} {obuf : BytesOperand} {old : TargetOperand} {ob : BitOperand}

theorem exec_bvOfSize_of_read (hn : readNat on s = .ok n) :
    exec (.bvOfSize x on) s = .next (s.writeVar x (.vec (bvOfSize n))) := by
  simp [exec, execBvOfSize, hn]

theorem exec_bvFromBytes_of_read (hbuf : readBytes obuf s.layout.OB s = .ok buf) :
    exec (.bvFromBytes x obuf .little) s = .next (s.writeVar x (.vec (bvFromBytes buf))) := by
  simp [exec, execBvFromBytes, hbuf]

theorem exec_bvFromBytes_other_of_read (hbuf : readBytes obuf s.layout.OB s = .ok buf) :
    exec (.bvFromBytes x obuf (.other n)) s = .refused (.bitOrderNotLittle n) := by
  simp [exec, execBvFromBytes, hbuf]

theorem exec_bvGet_of_read (hv : readVec ov s = .ok v) (hi : readNat on s = .ok i) :
    exec (.bvGet x ov on) s = deliver ((bvGet v i).map fun b => [(x, .bit b)]) s := by
  simp [exec, execBvGet, hv, hi]

theorem exec_bvSet_of_read (hv : readVec (old.toVec x) s = .ok v) (hi : readNat on s = .ok i)
    (hb : readBit ob s = .ok b) :
    exec (.bvSet x old on ob) s = deliver ((bvSet v i b).map fun w => [(x, .vec w)]) s := by
  simp [exec, execBvSet, hv, hi, hb]

/-- The value that BV_SET writes is refused whatever the index is (log entry 15). -/
theorem exec_bvSet_refused_of_read {r : Refusal} (hv : readVec (old.toVec x) s = .ok v)
    (hi : readNat on s = .ok i) (hb : readBit ob s = .error r) : exec (.bvSet x old on ob) s = .refused r := by
  simp [exec, execBvSet, hv, hi, hb]

theorem exec_bvSelectWhere_of_read {pred : Pred} (hv : readVec ov s = .ok v) :
    exec (.bvSelectWhere x ov pred) s = .next (s.writeVar x (.vec (bvSelectWhere v (s.layout.holds pred)))) := by
  simp [exec, execBvSelectWhere, hv]

theorem exec_bvPadTo_of_read (hv : readVec ov s = .ok v) (hn : readNat on s = .ok n) :
    exec (.bvPadTo x ov on) s = deliver ((bvPadTo v n).map fun w => [(x, .vec w)]) s := by
  simp [exec, execBvPadTo, hv, hn]

theorem exec_bvXor_of_read (hv : readVec ov s = .ok v) (hw : readVec ow s = .ok w) :
    exec (.bvXor x ov ow) s = deliver ((bvXor v w).map fun u => [(x, .vec u)]) s := by
  simp [exec, execBvXor, hv, hw]

theorem exec_bvParity_of_read (hv : readVec ov s = .ok v) :
    exec (.bvParity x ov) s = .next (s.writeVar x (.bit (bvParity v))) := by
  simp [exec, execBvParity, hv]

theorem exec_bvToBytes_of_read (hv : readVec ov s = .ok v) :
    exec (.bvToBytes x ov) s = .next (s.writeVar x (.bytes (bvToBytes v))) := by
  simp [exec, execBvToBytes, hv]

end Sys2Proof.Machine
end

