-- ==== Sys2Proof/Proofs/BitVectorObligations.lean ====
section
/-! The statements on the BitVector operations. -/

namespace Sys2Proof.Proofs

open Sys2Proof.Machine Sys2Proof.Safety

/-- Settles O18: every element of `bvOfSize n` is 0. -/
theorem bvOfSizeIsZeroFilled : Obligations.BvOfSizeIsZeroFilled := by
  intro s dst n o hn
  exact ⟨rfl, bvOfSize n, exec_bvOfSize_of_read hn, bvOfSize_length n, fun i => bvOfSize_getElem?⟩

/-- Settles O19: element `i` of the parsed buffer is a bit of byte `i / 8`, which the buffer has. -/
theorem bvFromBytesTakesBitsInLittleOrder : Obligations.BvFromBytesTakesBitsInLittleOrder := by
  intro s dst o buf hbuf
  refine ⟨rfl, ⟨bvFromBytes buf, exec_bvFromBytes_of_read hbuf, bvFromBytes_length buf, fun i hi => ?_⟩,
    fun n => exec_bvFromBytes_other_of_read hbuf⟩
  have hbyte : buf[i / 8]? = some buf[i / 8] := List.getElem?_eq_getElem (by omega)
  exact ⟨_, hbyte, by rw [bvFromBytes_getElem? hi, bufBit_of_getElem? hbyte]⟩

/-- Settles O20, by whether the operand has an element `i`. -/
theorem bvGetReadsTheElementOrFaults : Obligations.BvGetReadsTheElementOrFaults := by
  intro s dst i ov oi v hv hi
  rw [exec_bvGet_of_read hv hi]
  exact ⟨rfl, fun b hb => deliver_map_of_ok (bvGet_of_getElem? hb) _ s,
    fun hge => deliver_map_of_error (bvGet_of_ge hge) _ s⟩

/-- Settles O21: the value is read before the operation's own check of the index. -/
theorem bvSetWritesTheElementOrFaults : Obligations.BvSetWritesTheElementOrFaults := by
  intro s x i old oi v hv hi
  refine ⟨fun _ => rfl, fun ob b hb hlt => ⟨v.set i b, ?_, List.length_set, ?_, fun j hj => ?_⟩,
    fun ob b hb hge => ?_, fun ob n hn hob => ?_⟩
  · rw [exec_bvSet_of_read hv hi hb]
    exact deliver_map_of_ok (bvSet_of_lt b hlt) _ s
  · exact List.getElem?_set_self hlt
  · exact List.getElem?_set_ne hj.symm
  · rw [exec_bvSet_of_read hv hi hb]
    exact deliver_map_of_error (bvSet_of_ge b hge) _ s
  · exact exec_bvSet_refused_of_read hv hi (readBit_notABit hn hob)

/-- Settles O22: the operand paired with its positions is the ascending positions, each with its element. -/
theorem bvSelectWhereKeepsTheSelectedElements : Obligations.BvSelectWhereKeepsTheSelectedElements := by
  intro s dst o pred v hv
  refine ⟨rfl, ?_⟩
  rw [exec_bvSelectWhere_of_read hv, bvSelectWhere_eq_filter_zipIdx]

/-- Settles O23: below the operand's length the error is recorded, from there on zeros are appended. -/
theorem bvPadToExtendsWithZeros : Obligations.BvPadToExtendsWithZeros := by
  intro s dst n ov o v hv hn
  rw [exec_bvPadTo_of_read hv hn]
  refine ⟨rfl, fun hle => ?_, fun hlt => deliver_map_of_error (bvPadTo_of_lt hlt) _ s⟩
  refine ⟨v ++ bvOfSize (n - v.length), deliver_map_of_ok (bvPadTo_ok_iff.2 ⟨hle, rfl⟩) _ s, ?_,
    fun i hi => List.getElem?_append_left hi, fun i hi hin => ?_⟩
  · rw [List.length_append, bvOfSize_length]
    omega
  · rw [List.getElem?_append_right hi]
    exact bvOfSize_getElem? (by omega)

/-- Settles O24, by whether the lengths are equal. -/
theorem bvXorIsElementWiseOrFaults : Obligations.BvXorIsElementWiseOrFaults := by
  intro s dst oa ob a b ha hb
  rw [exec_bvXor_of_read ha hb]
  refine ⟨rfl, fun hl => ?_, fun hne => deliver_map_of_error (bvXor_of_length_ne hne) _ s⟩
  refine ⟨List.zipWith xor a b, deliver_map_of_ok (bvXor_of_length hl) _ s, by simp [hl], fun i p q hp hq => ?_⟩
  exact List.getElem?_zipWith_eq_some.2 ⟨p, q, hp, hq, rfl⟩

/-- Settles O25: each set element changes the parity once. -/
theorem bvParityIsOddPopcount : Obligations.BvParityIsOddPopcount := by
  intro s dst o v hv
  exact ⟨rfl, by rw [exec_bvParity_of_read hv, bvParity_eq_odd_count]⟩

/-- Settles O26: bit `8j + b` of the buffer is the element of that number. -/
theorem bvToBytesPacksBitsInLittleOrder : Obligations.BvToBytesPacksBitsInLittleOrder := by
  intro s dst o v hv
  have hlen := bvToBytes_length v
  refine ⟨rfl, bvToBytes v, exec_bvToBytes_of_read hv, by omega, by omega, fun j byte hbyte b hb => ?_⟩
  have hdiv : (8 * j + b) / 8 = j := by omega
  have hmod : (8 * j + b) % 8 = b := by omega
  calc byte.toNat.testBit b
      = bufBit (bvToBytes v) (8 * j + b) := by rw [bufBit_of_getElem? (by rwa [hdiv]), hmod]
    _ = (v[8 * j + b]?).getD false := by rw [bufBit_bvToBytes, List.getD_eq_getElem?_getD]

/-- Settles O27: both directions keep every bit, and the second adds zeros up to whole bytes. -/
theorem serializationRoundTrips : Obligations.SerializationRoundTrips :=
  ⟨bvToBytes_bvFromBytes, fun v => bvPadTo_ok_iff.2 ⟨by omega, bvFromBytes_bvToBytes v⟩⟩

/-- Settles O28, from the laws of `xor` on each element. -/
theorem xorAndParityLaws : Obligations.XorAndParityLaws := by
  refine ⟨fun a => ?_, fun a b x hx => ?_, fun a b c x y hx hy => ?_, fun a b x hx => ?_, fun v w n hw => ?_⟩
  · exact bvXor_ok_iff.2 ⟨rfl, (zipWith_xor_self a).symm⟩
  · obtain ⟨hl, rfl⟩ := bvXor_ok_iff.1 hx
    exact bvXor_ok_iff.2 ⟨hl.symm, List.zipWith_comm_of_comm Bool.xor_comm⟩
  · obtain ⟨hab, rfl⟩ := bvXor_ok_iff.1 hx
    obtain ⟨hxc, rfl⟩ := bvXor_ok_iff.1 hy
    have hbc : b.length = c.length := by simpa [hab] using hxc
    exact ⟨List.zipWith xor b c, bvXor_of_length hbc,
      bvXor_ok_iff.2 ⟨by simp [hab, hbc], zipWith_xor_assoc a b c⟩⟩
  · obtain ⟨hl, rfl⟩ := bvXor_ok_iff.1 hx
    exact bvParity_zipWith_xor hl
  · obtain ⟨-, rfl⟩ := bvPadTo_ok_iff.1 hw
    simp

end Sys2Proof.Proofs
end

