-- ==== Sys2Proof/Proofs/Frames.lean ====
section
/-! The frame of a block by its bits: what ENCODE answers is the only buffer that meets the rules of 41_encoder.md R140 to
R144, so a buffer that meets them is what ENCODE answers. -/

namespace Sys2Proof.Machine

open Sys2Proof.Safety

/-! ## Parities over positions -/

theorem oddOnes_cons (p : Nat) (ps : List Nat) (bit : Nat → Bool) :
    oddOnes (p :: ps) bit = xor (bit p) (oddOnes ps bit) := by
  rw [← bvParity_map, ← bvParity_map, List.map_cons, bvParity_cons]

/-- A parity reads the bits at its own positions only. -/
theorem oddOnes_congr {ps : List Nat} {f g : Nat → Bool} (h : ∀ p ∈ ps, f p = g p) : oddOnes ps f = oddOnes ps g := by
  rw [← bvParity_map, ← bvParity_map, List.map_congr_left h]

theorem oddOnes_false (ps : List Nat) : oddOnes ps (fun _ => false) = false := by simp [oddOnes]

theorem oddOnes_xor (ps : List Nat) (f g : Nat → Bool) :
    oddOnes ps (fun p => xor (f p) (g p)) = xor (oddOnes ps f) (oddOnes ps g) := by
  rw [← bvParity_map, ← bvParity_map, ← bvParity_map, ← bvParity_zipWith_xor (by simp), List.zipWith_map,
    List.zipWith_self]

/-- The parity of all positions is that of position 0 and of those above it. -/
theorem oddOnes_range {n : Nat} (hn : 0 < n) (bit : Nat → Bool) :
    oddOnes (List.range n) bit = xor (bit 0) (oddOnes ((List.range n).drop 1) bit) := by
  obtain ⟨n, rfl⟩ := Nat.exists_eq_succ_of_ne_zero hn.ne'
  rw [List.range_succ_eq_map, oddOnes_cons, List.drop_one, List.tail_cons]

theorem pos_of_mem_drop_one_range {n p : Nat} (h : p ∈ (List.range n).drop 1) : 0 < p := by
  obtain ⟨i, hi, rfl⟩ := List.mem_drop_iff_getElem.1 h
  simp

/-- The parity of a vector is that of its positions. -/
theorem bvParity_eq_oddOnes_range (v : Bits) : bvParity v = oddOnes (List.range v.length) (elem v) := by
  rw [← bvParity_map]
  congr 1
  exact List.ext_getElem (by simp) fun i hi _ => by simp [elem_eq_getElem hi]

/-! ## Bits of a buffer -/

theorem bufBit_replicate_zero (n p : Nat) : bufBit (List.replicate n 0) p = false := by
  simp [bufBit, List.getD_eq_getElem?_getD, List.getElem?_getD_replicate_default_eq]

@[simp] theorem bytesXor_length (a b : Bytes) : (bytesXor a b).length = min a.length b.length := by simp [bytesXor]

/-- Byte by byte and bit by bit, the exclusive or of two buffers of one length is the same. -/
theorem bufBit_bytesXor {a b : Bytes} (hl : a.length = b.length) (p : Nat) :
    bufBit (bytesXor a b) p = xor (bufBit a p) (bufBit b p) := by
  by_cases hp : p / 8 < a.length
  · simp [bufBit, bytesXor, hp, hl ▸ hp]
  · have hb : ¬ p / 8 < b.length := hl ▸ hp
    simp [bufBit, bytesXor, hp, hb]

/-! ## The rules of a frame -/

variable {L : Layout} {m c : Bytes}

/-- The buffer `c` has the size and the bits of the frame of the block `m`: R144, R64, R142, R143 and R62 in this order. -/
structure IsFrame (L : Layout) (m c : Bytes) : Prop where
  length : c.length = L.OB
  data : ∀ p, p < L.T → isData p = true → bufBit c p = bufBit m (didx p)
  group : ∀ i, i < L.k → bufBit c (2 ^ i) = oddOnes (L.cover i) (bufBit c)
  global : bufBit c 0 = oddOnes ((List.range L.T).drop 1) (bufBit c)
  padding : ∀ p, L.T ≤ p → bufBit c p = false

/-- Every position of the word is position 0, the position of a group, or a DATA position. -/
theorem wf_position_cases (h : L.wf = true) {p : Nat} (hp : p < L.T) :
    p = 0 ∨ (∃ i, i < L.k ∧ p = 2 ^ i) ∨ isData p = true := by
  rcases Nat.eq_zero_or_pos p with h0 | hpos
  · exact .inl h0
  · refine .inr ?_
    cases hd : isData p with
    | true => exact .inr rfl
    | false =>
      rw [isData_eq_not_isGroup hpos, Bool.not_eq_false', isGroup, isPow2_iff] at hd
      obtain ⟨i, rfl⟩ := hd
      exact .inl ⟨i, wf_group_index h hp, rfl⟩

/-- The whole word of a frame has even parity (R143). -/
theorem IsFrame.parity (h : L.wf = true) (hc : IsFrame L m c) : oddOnes (List.range L.T) (bufBit c) = false := by
  have hT := wf_T h
  rw [oddOnes_range (by omega), ← hc.global, Bool.xor_self]

/-- A block has one frame: the data bits fix the group bits, and these and the data bits the global bit. -/
theorem IsFrame.unique (h : L.wf = true) {c' : Bytes} (hc : IsFrame L m c) (hc' : IsFrame L m c') : c = c' := by
  have hdata : ∀ p, p < L.T → isData p = true → bufBit c p = bufBit c' p := fun p hp hd => by
    rw [hc.data p hp hd, hc'.data p hp hd]
  have hgroup : ∀ i, i < L.k → bufBit c (2 ^ i) = bufBit c' (2 ^ i) := fun i hi => by
    rw [hc.group i hi, hc'.group i hi]
    refine oddOnes_congr fun p hp => ?_
    obtain ⟨hT, hd, -⟩ := (mem_cover L i p).1 hp
    exact hdata p hT hd
  have habove : ∀ p, p < L.T → 0 < p → bufBit c p = bufBit c' p := fun p hp hpos => by
    obtain rfl | ⟨i, hi, rfl⟩ | hd := wf_position_cases h hp
    · exact absurd hpos (Nat.lt_irrefl 0)
    · exact hgroup i hi
    · exact hdata p hp hd
  have hglobal : bufBit c 0 = bufBit c' 0 := by
    rw [hc.global, hc'.global]
    exact oddOnes_congr fun p hp =>
      habove p (List.mem_range.1 (List.mem_of_mem_drop hp)) (pos_of_mem_drop_one_range hp)
  refine eq_of_bufBit (hc.length.trans hc'.length.symm) fun p => ?_
  rcases Nat.lt_or_ge p L.T with hp | hp
  · rcases Nat.eq_zero_or_pos p with rfl | hpos
    · exact hglobal
    · exact habove p hp hpos
  · rw [hc.padding p hp, hc'.padding p hp]

/-! ## ENCODE answers the frame -/

/-- What ENCODE answers for a block of `s` bytes is its frame. -/
theorem isFrame_of_encodeBlock (h : L.wf = true) (hc : encodeBlock L m = .ok c) : IsFrame L m c := by
  have hT := wf_T h
  have hw := hc
  rw [encodeBlock_of_length h (encodeBlock_ok_length hc), Except.ok.injEq] at hw
  have hbit : bufBit c = elem (codeword L (bvFromBytes m)) := funext fun p => by rw [← hw, bufBit_bvToBytes, elem]
  refine ⟨?_, fun p hp hd => ?_, fun i hi => ?_, ?_, fun p hp => ?_⟩
  · rw [← hw, bvToBytes_length, codeword_length, wf_OB h]
  · exact encodeBlock_carries_data h hc (dpos_getElem?_didx hp hd)
  · rw [hbit, codeword_group h hi, coverParity, bvParity_map]
  · have hparity := codeword_parity (D := bvFromBytes m) h
    rw [bvParity_eq_oddOnes_range, codeword_length, oddOnes_range (by omega)] at hparity
    rw [hbit]
    simpa using hparity
  · rw [hbit, elem, List.getD_eq_default _ _ (by rwa [codeword_length])]

/-- ENCODE answers exactly the frame of a block of `s` bytes. -/
theorem encodeBlock_eq_ok_iff (h : L.wf = true) : encodeBlock L m = .ok c ↔ m.length = L.s ∧ IsFrame L m c := by
  refine ⟨fun hc => ⟨encodeBlock_ok_length hc, isFrame_of_encodeBlock h hc⟩, fun ⟨hm, hc⟩ => ?_⟩
  have hok := encodeBlock_of_length h hm
  rw [hok, (isFrame_of_encodeBlock h hok).unique h hc]

/-- ENCODE of a block of another length is an error. -/
theorem encodeBlock_of_length_ne (hm : m.length ≠ L.s) : encodeBlock L m = .error (.invalidLength m.length L.s) :=
  if_pos hm

/-- ENCODE of an operand that is read is the block's frame, delivered. -/
theorem exec_encode_of_read {x : Nat} {o : BytesOperand} {s : State} (hread : readBytes o s.layout.s s = .ok m) :
    exec (.encode x o) s = deliver ((encodeBlock s.layout m).map fun c => [(x, .bytes c)]) s := by
  simp [exec, execEncode, hread]

/-! ## Linearity -/

/-- The zero buffer is the frame of the zero block. -/
theorem isFrame_zero (L : Layout) (n : Nat) : IsFrame L (List.replicate n 0) (List.replicate L.OB 0) := by
  have hbit : bufBit (List.replicate L.OB 0) = fun _ => false := funext (bufBit_replicate_zero L.OB)
  refine ⟨List.length_replicate, fun p _ _ => ?_, fun i _ => ?_, ?_, fun p _ => bufBit_replicate_zero L.OB p⟩
  · rw [bufBit_replicate_zero, bufBit_replicate_zero]
  · rw [hbit, oddOnes_false]
  · rw [hbit, oddOnes_false]

/-- The exclusive or of two frames is the frame of the blocks' exclusive or: every rule of a frame is linear. -/
theorem IsFrame.xor {m₁ m₂ c₁ c₂ : Bytes} (hm : m₁.length = m₂.length) (h₁ : IsFrame L m₁ c₁) (h₂ : IsFrame L m₂ c₂) :
    IsFrame L (bytesXor m₁ m₂) (bytesXor c₁ c₂) := by
  have hc : c₁.length = c₂.length := h₁.length.trans h₂.length.symm
  have hbit : bufBit (bytesXor c₁ c₂) = fun p => Bool.xor (bufBit c₁ p) (bufBit c₂ p) := funext (bufBit_bytesXor hc)
  refine ⟨?_, fun p hp hd => ?_, fun i hi => ?_, ?_, fun p hp => ?_⟩
  · rw [bytesXor_length, h₁.length, h₂.length, Nat.min_self]
  · rw [bufBit_bytesXor hc, bufBit_bytesXor hm, h₁.data p hp hd, h₂.data p hp hd]
  · rw [hbit, oddOnes_xor, ← h₁.group i hi, ← h₂.group i hi]
  · rw [hbit, oddOnes_xor, ← h₁.global, ← h₂.global]
  · rw [bufBit_bytesXor hc, h₁.padding p hp, h₂.padding p hp, Bool.xor_false]

end Sys2Proof.Machine
end

