-- ==== Sys2Proof/Proofs/EncoderUnit.lean ====
section
/-! The buses of the units (20_memory.md R44), and the bits that the encoder unit drives (41_encoder.md R145). -/

namespace Sys2Proof.Machine

open Sys2Proof.Safety

/-! ## Buses -/

theorem bus_getLsbD (n : Nat) (v : Bits) (i : Nat) : (bus n v).getLsbD i = (decide (i < n) && elem v i) := by
  rw [bus, BitVec.getLsbD_ofNat, testBit_uint, elem]

@[simp] theorem busBits_length {n : Nat} (x : BitVec n) : (busBits x).length = n := by simp [busBits]

/-- Element `i` of a bus's bits is its bit `i`, and 0 past its width. -/
theorem elem_busBits {n : Nat} (x : BitVec n) (i : Nat) : elem (busBits x) i = x.getLsbD i := by
  rcases Nat.lt_or_ge i n with h | h
  · simp [elem, busBits, h]
  · simp [elem, busBits, Nat.not_lt.2 h, BitVec.getLsbD_of_ge x i h]

/-- A bus as wide as the vector it is wired to carries that vector. -/
@[simp] theorem busBits_bus (v : Bits) : busBits (bus v.length v) = v := by
  refine eq_of_elem (busBits_length _) fun i => ?_
  rw [elem_busBits, bus_getLsbD]
  rcases Nat.lt_or_ge i v.length with h | h
  · simp [h]
  · simp [elem, h]

@[simp] theorem busBytes_length {n : Nat} (x : BitVec n) : (busBytes x).length = (n + 7) / 8 := by simp [busBytes]

/-- Bit `i` of a port's bytes is its bit `i`. -/
theorem bufBit_busBytes {n : Nat} (x : BitVec n) (i : Nat) : bufBit (busBytes x) i = x.getLsbD i := by
  rw [busBytes, bufBit_bvToBytes, ← elem, elem_busBits]

theorem parityTree_map (ps : List Nat) (bit : Nat → Bool) : parityTree (ps.map bit) = oddOnes ps bit := by
  rw [parityTree, parityXorUnit, busBits_bus, bvParity_map]

/-! ## The codeword's wires -/

variable {L : Layout} {data : Nat → Bool}

theorem codeWire_zero : codeWire L data 0 = false := rfl

theorem codeWire_data {p : Nat} (hp : isData p = true) : codeWire L data p = data (didx p) := by
  obtain ⟨hpos, hpow⟩ := (isData_iff p).1 hp
  have hne : ¬ isPow2 p = true := fun h => (isPow2_iff p).1 h |>.elim hpow
  rw [codeWire, if_neg hpos.ne', if_neg hne]

/-- A group's wire is the parity of the wires that it covers, which carry data bits. -/
theorem codeWire_group (i : Nat) : codeWire L data (2 ^ i) = oddOnes (L.cover i) (codeWire L data) := by
  rw [codeWire, if_neg (Nat.two_pow_pos i).ne', if_pos (isPow2_two_pow i), Nat.log2_two_pow, groupTree, parityTree_map]
  exact oddOnes_congr fun p hp => (codeWire_data ((mem_cover L i p).1 hp).2.1).symm

theorem globalTree_eq : globalTree L data = oddOnes (List.range L.T) (codeWire L data) := parityTree_map _ _

/-! ## What the unit drives -/

section Driven

variable (h : L.wf = true) (dataIn : BitVec (8 * L.s))
include h

/-- Below `T` the port carries the wires, the global bit at position 0. -/
theorem bufBit_encoderUnit {p : Nat} (hp : p < L.T) :
    bufBit (busBytes (encoderUnit L dataIn)) p
      = if p = 0 then globalTree L dataIn.getLsbD else codeWire L dataIn.getLsbD p := by
  have hOB := wf_OB h
  have hport : p < 8 * L.OB := by omega
  rw [bufBit_busBytes, encoderUnit, bus_getLsbD]
  simp [elem, hp, hport]

theorem bufBit_encoderUnit_zero : bufBit (busBytes (encoderUnit L dataIn)) 0 = globalTree L dataIn.getLsbD := by
  have hT := wf_T h
  rw [bufBit_encoderUnit h dataIn (by omega), if_pos rfl]

theorem bufBit_encoderUnit_of_pos {p : Nat} (hp : p < L.T) (hpos : 0 < p) :
    bufBit (busBytes (encoderUnit L dataIn)) p = codeWire L dataIn.getLsbD p := by
  rw [bufBit_encoderUnit h dataIn hp, if_neg hpos.ne']

/-- The encoder unit drives the frame of its port's block. -/
theorem isFrame_encoderUnit : IsFrame L (busBytes dataIn) (busBytes (encoderUnit L dataIn)) := by
  have hT := wf_T h
  refine ⟨by rw [busBytes_length]; omega, fun p hp hd => ?_, fun i hi => ?_, ?_, fun p hp => ?_⟩
  · rw [bufBit_encoderUnit_of_pos h dataIn hp ((isData_iff p).1 hd).1, codeWire_data hd, bufBit_busBytes]
  · rw [bufBit_encoderUnit_of_pos h dataIn (wf_group_lt h hi) (Nat.two_pow_pos i), codeWire_group]
    refine oddOnes_congr fun p hp => ?_
    obtain ⟨hpT, hd, -⟩ := (mem_cover L i p).1 hp
    rw [bufBit_encoderUnit_of_pos h dataIn hpT ((isData_iff p).1 hd).1]
  · rw [bufBit_encoderUnit_zero h, globalTree_eq, oddOnes_range (by omega), codeWire_zero, Bool.false_xor]
    refine oddOnes_congr fun p hp => ?_
    rw [bufBit_encoderUnit_of_pos h dataIn (List.mem_range.1 (List.mem_of_mem_drop hp)) (pos_of_mem_drop_one_range hp)]
  · rw [bufBit_busBytes, encoderUnit, bus_getLsbD]
    simp [elem, hp]

end Driven

end Sys2Proof.Machine
end

