-- ==== Sys2Proof/Proofs/EncoderObligations.lean ====
section
/-! The statements on ENCODE and the encoder unit. -/

namespace Sys2Proof.Proofs

open Sys2Proof.Machine Sys2Proof.Safety

/-- Settles O29: ENCODE delivers the block's frame, whose rules are the statement's, or records the wrong length. -/
theorem encodeWritesTheCodeword : Obligations.EncodeWritesTheCodeword := by
  intro s dst o m hread
  rw [exec_encode_of_read hread]
  refine ⟨rfl, fun hwf hm => ?_, fun hm => deliver_map_of_error (encodeBlock_of_length_ne hm) _ s⟩
  have hok := encodeBlock_of_length hwf hm
  have hframe := isFrame_of_encodeBlock hwf hok
  exact ⟨_, deliver_map_of_ok hok _ s, hframe.length, hframe.data, hframe.group, hframe.global, hframe.parity hwf,
    fun p hp _ => hframe.padding p hp⟩

/-- Settles O30: the zero buffer and the exclusive or of two frames meet the rules of a frame. -/
theorem encodeIsLinear : Obligations.EncodeIsLinear := by
  intro L hwf
  refine ⟨(encodeBlock_eq_ok_iff hwf).2 ⟨List.length_replicate, isFrame_zero L L.s⟩, fun m1 m2 c1 c2 h1 h2 => ?_⟩
  obtain ⟨hm1, hc1⟩ := (encodeBlock_eq_ok_iff hwf).1 h1
  obtain ⟨hm2, hc2⟩ := (encodeBlock_eq_ok_iff hwf).1 h2
  exact (encodeBlock_eq_ok_iff hwf).2 ⟨by simp [hm1, hm2], hc1.xor (hm1.trans hm2.symm) hc2⟩

/-- Settles O57: what the unit's trees and wires drive meets the rules of a frame. -/
theorem encoderUnitDrivesEncode : Obligations.EncoderUnitDrivesEncode := by
  intro L dataIn hwf
  refine (encodeBlock_eq_ok_iff hwf).2 ⟨?_, isFrame_encoderUnit hwf dataIn⟩
  rw [busBytes_length]
  omega

end Sys2Proof.Proofs
end

