-- ==== Sys2Proof/Proofs/Syndrome.lean ====
section
/-! SYNDROME by the elements of its operands (42_syndrome.md R161), and against the reference word made from the
received word's own data (R164, R165). -/

namespace Sys2Proof.Machine

open Sys2Proof.Safety

variable {L : Layout}

/-! ## Two vectors of `T` elements -/

/-- The GROUP positions of a word are `2^0 .. 2^(k-1)`, in this order. -/
theorem bvSelectWhere_isGroup (h : L.wf = true) {w : Bits} (hw : w.length = L.T) :
    bvSelectWhere w isGroup = (List.range L.k).map fun i => elem w (2 ^ i) := by
  rw [bvSelectWhere, hw, ← Layout.gpos, wf_gpos h, List.map_map]
  rfl

/-- SYNDROME compares the words group by group. -/
theorem syndromeOf_eq (h : L.wf = true) {r f : Bits} (hr : r.length = L.T) (hf : f.length = L.T) :
    syndromeOf r f
      = .ok ((List.range L.k).map fun i => xor (elem r (2 ^ i)) (elem f (2 ^ i)), bvParity r) := by
  rw [syndromeOf_of_length (hr.trans hf.symm), bvSelectWhere_isGroup h hr, bvSelectWhere_isGroup h hf,
    List.zipWith_map, List.zipWith_self]

theorem codewordLength_of_eq {v : Bits} (hv : v.length = L.T) : codewordLength L v = .ok v := if_pos hv

/-- SYNDROME of two words that are read is their syndrome, delivered. -/
theorem exec_syndrome_of_read {x y : Nat} {or of : VecOperand} {r f : Bits} {s : State}
    (hr : readVec or s = .ok r) (hf : readVec of s = .ok f) (hrT : r.length = s.layout.T)
    (hfT : f.length = s.layout.T) :
    exec (.syndrome x y or of) s
      = deliver ((syndromeOf r f).map fun res => [(x, .vec res.1), (y, .bit res.2)]) s := by
  simp [exec, execSyndrome, hr, hf, codewordLength_of_eq hrT, codewordLength_of_eq hfT]

/-! ## The reference word -/

/-- The codeword made from a word's own data holds them where the word does. -/
theorem elem_codeword_bvSelectWhere {w : Bits} (hw : w.length = L.T) {p : Nat} (hp : p < L.T)
    (hdata : isData p = true) : elem (codeword L (bvSelectWhere w isData)) p = elem w p := by
  have hsel : bvSelectWhere w isData = L.dpos.map (elem w) := by rw [bvSelectWhere, hw, ← Layout.dpos]
  obtain ⟨hj, hget⟩ := List.getElem?_eq_some_iff.1 (dpos_getElem?_didx hp hdata)
  have hlen : (bvSelectWhere w isData).length = L.dpos.length := by rw [hsel, List.length_map]
  have hcarried := codeword_data hlen hj
  simpa only [hget, hsel, List.getElem_map] using hcarried

/-- Its group bits are the parities of the word's own covered positions. -/
theorem elem_codeword_bvSelectWhere_group (h : L.wf = true) {w : Bits} (hw : w.length = L.T) {i : Nat} (hi : i < L.k) :
    elem (codeword L (bvSelectWhere w isData)) (2 ^ i) = oddOnes (L.cover i) (elem w) := by
  rw [codeword_group h hi, coverParity, bvParity_map]
  refine oddOnes_congr fun p hp => ?_
  obtain ⟨hT, hdata, -⟩ := (mem_cover L i p).1 hp
  exact elem_codeword_bvSelectWhere hw hT hdata

/-- The syndrome against the reference word needs only the received word (R164(a)). -/
theorem syndromeOf_reference (h : L.wf = true) {w : Bits} (hw : w.length = L.T) :
    syndromeOf w (codeword L (bvSelectWhere w isData))
      = .ok ((List.range L.k).map fun i => oddOnes (2 ^ i :: L.cover i) (elem w), bvParity w) := by
  have hgroup : ∀ i ∈ List.range L.k, xor (elem w (2 ^ i)) (elem (codeword L (bvSelectWhere w isData)) (2 ^ i))
      = oddOnes (2 ^ i :: L.cover i) (elem w) := fun i hi => by
    rw [elem_codeword_bvSelectWhere_group h hw (List.mem_range.1 hi), oddOnes_cons]
  rw [syndromeOf_eq h hw (codeword_length L _), List.map_congr_left hgroup]

/-- A codeword has no mismatch: a group position and the positions it covers have even parity. -/
theorem oddOnes_codeword_group (h : L.wf = true) {D : Bits} {i : Nat} (hi : i < L.k) :
    oddOnes (2 ^ i :: L.cover i) (elem (codeword L D)) = false := by
  rw [oddOnes_cons, codeword_group h hi, coverParity, bvParity_map, Bool.xor_self]

/-! ## Inverted positions -/

@[simp] theorem flipVec_length (w : Bits) (E : List Nat) : (flipVec w E).length = w.length := by simp [flipVec]

theorem elem_flipVec {w : Bits} {p : Nat} (hp : p < w.length) (E : List Nat) :
    elem (flipVec w E) p = xor (elem w p) (decide (p ∈ E)) := by
  simp [elem, flipVec, hp]

/-- Inverting positions changes a parity by the parity of the inverted ones among its own. -/
theorem oddOnes_flipVec {w : Bits} {ps : List Nat} (hps : ∀ p ∈ ps, p < w.length) (E : List Nat) :
    oddOnes ps (elem (flipVec w E)) = xor (oddOnes ps (elem w)) (oddOnes ps fun p => decide (p ∈ E)) := by
  rw [← oddOnes_xor]
  exact oddOnes_congr fun p hp => elem_flipVec (hps p hp) E

/-- The common members of two lists without repetition may be counted in either one. -/
theorem oddOnes_mem_comm {ps E : List Nat} (hps : ps.Nodup) (hE : E.Nodup) :
    (oddOnes ps fun p => decide (p ∈ E)) = oddOnes E fun p => decide (p ∈ ps) := by
  have hperm : (ps.filter fun p => decide (p ∈ E)).Perm (E.filter fun p => decide (p ∈ ps)) :=
    (List.perm_ext_iff_of_nodup (hps.filter _) (hE.filter _)).2 fun p => by simp [and_comm]
  rw [oddOnes, oddOnes, hperm.length_eq]

theorem oddOnes_true (E : List Nat) : oddOnes E (fun _ => true) = decide (E.length % 2 = 1) := by simp [oddOnes]

/-! ## The positions with bit `i` -/

/-- Position `p` has bit `i` exactly where group `i` stands or covers `p`: of the powers of two only `2^i` has it. -/
theorem mem_group_cons_cover (h : L.wf = true) {i p : Nat} (hp : p < L.T) :
    p ∈ 2 ^ i :: L.cover i ↔ p.testBit i = true := by
  rw [List.mem_cons, mem_cover]
  obtain rfl | ⟨j, -, rfl⟩ | hdata := wf_position_cases h hp
  · simp [(Nat.two_pow_pos i).ne]
  · simp [Nat.testBit_two_pow]
  · simp [hp, hdata, ((isData_iff p).1 hdata).2 i]

theorem group_cons_cover_nodup (L : Layout) (i : Nat) : (2 ^ i :: L.cover i).Nodup :=
  List.nodup_cons.2 ⟨fun hmem => by simpa using ((mem_cover L i _).1 hmem).2.1, List.nodup_range.filter _⟩

theorem lt_of_mem_group_cons_cover (h : L.wf = true) {i : Nat} (hi : i < L.k) {p : Nat}
    (hp : p ∈ 2 ^ i :: L.cover i) : p < L.T := by
  rcases List.mem_cons.1 hp with rfl | hp
  · exact wf_group_lt h hi
  · exact ((mem_cover L i p).1 hp).1

/-! ## The exclusive or of positions -/

theorem testBit_positionsXor (E : List Nat) (i : Nat) :
    (positionsXor E).testBit i = oddOnes E fun p => p.testBit i := by
  induction E with
  | nil => exact Nat.zero_testBit i
  | cons p E ih => rw [oddOnes_cons, ← ih, ← Nat.testBit_xor]; rfl

theorem positionsXor_lt {E : List Nat} {k : Nat} (hE : ∀ p ∈ E, p < 2 ^ k) : positionsXor E < 2 ^ k := by
  induction E with
  | nil => exact Nat.two_pow_pos k
  | cons p E ih =>
    exact Nat.xor_lt_two_pow (hE p List.mem_cons_self) (ih fun q hq => hE q (List.mem_cons_of_mem p hq))

/-- The first `k` bits of a number below `2^k` are that number. -/
theorem uint_map_testBit {n k : Nat} (hn : n < 2 ^ k) : uint ((List.range k).map n.testBit) = n := by
  refine Nat.eq_of_testBit_eq fun i => ?_
  rw [testBit_uint]
  rcases Nat.lt_or_ge i k with hi | hi
  · simp [hi]
  · have hbit := Nat.testBit_lt_two_pow (hn.trans_le (Nat.pow_le_pow_right (by decide) hi))
    simp [hbit, Nat.not_lt.2 hi]

/-! ## Errors in a codeword -/

section Errors

variable (h : L.wf = true) (D : Bits) {E : List Nat} (hE : E.Nodup) (hT : ∀ p ∈ E, p < L.T)
include h hE hT

/-- Group `i` of a corrupted codeword mismatches by bit `i` of the exclusive or of the error positions. -/
theorem oddOnes_flipVec_codeword_group {i : Nat} (hi : i < L.k) :
    oddOnes (2 ^ i :: L.cover i) (elem (flipVec (codeword L D) E)) = (positionsXor E).testBit i := by
  have hps : ∀ p ∈ 2 ^ i :: L.cover i, p < (codeword L D).length := fun p hp => by
    rw [codeword_length]
    exact lt_of_mem_group_cons_cover h hi hp
  rw [oddOnes_flipVec hps, oddOnes_codeword_group h hi, Bool.false_xor,
    oddOnes_mem_comm (group_cons_cover_nodup L i) hE, testBit_positionsXor]
  exact oddOnes_congr fun p hp => by simp only [mem_group_cons_cover h (hT p hp), Bool.decide_eq_true]

/-- The parity of a corrupted codeword is that of the number of errors. -/
theorem bvParity_flipVec_codeword : bvParity (flipVec (codeword L D) E) = decide (E.length % 2 = 1) := by
  rw [bvParity_eq_oddOnes_range, flipVec_length, oddOnes_flipVec fun p => List.mem_range.1,
    ← bvParity_eq_oddOnes_range, codeword_parity h, Bool.false_xor, codeword_length,
    oddOnes_mem_comm List.nodup_range hE, ← oddOnes_true]
  exact oddOnes_congr fun p hp => decide_eq_true (List.mem_range.2 (hT p hp))

/-- The syndrome of a corrupted codeword is the bits of the exclusive or of the error positions (R165). -/
theorem syndromeOf_flipVec_codeword :
    syndromeOf (flipVec (codeword L D) E) (codeword L (bvSelectWhere (flipVec (codeword L D) E) isData))
      = .ok ((List.range L.k).map (positionsXor E).testBit, decide (E.length % 2 = 1)) := by
  rw [syndromeOf_reference h (by simp), bvParity_flipVec_codeword h D hE hT,
    List.map_congr_left fun i hi => oddOnes_flipVec_codeword_group h D hE hT (List.mem_range.1 hi)]

end Errors

/-! ## The unit -/

/-- Bit `i` of the unit's syndrome is the mismatch of the ports at position `2^i` (R166). -/
theorem busBits_syndromeUnit (received reference : BitVec L.T) :
    busBits (syndromeUnit L received reference).syndrome
      = (List.range L.k).map fun i => xor (received.getLsbD (2 ^ i)) (reference.getLsbD (2 ^ i)) := by
  refine List.map_congr_left fun i hi => ?_
  have hk := List.mem_range.1 hi
  rw [syndromeUnit, parityXorUnit, BitVec.getLsbD_xor, bus_getLsbD, bus_getLsbD]
  simp [elem, hk]

theorem syndromeUnit_globalMismatch (received reference : BitVec L.T) :
    (syndromeUnit L received reference).globalMismatch = bvParity (busBits received) := rfl

end Sys2Proof.Machine
end

