-- ==== Sys2Proof/Proofs/SyndromeObligations.lean ====
section
/-! The statements on SYNDROME and its unit. -/

namespace Sys2Proof.Proofs

open Sys2Proof.Machine Sys2Proof.Safety

/-- Settles O32: element `i` of the syndrome compares the words at `2^i`, and a parity is an odd count. -/
theorem syndromeComparesTheGroups : Obligations.SyndromeComparesTheGroups := by
  intro s x y or of r f hwf hr hf hrT hfT
  rw [exec_syndrome_of_read hr hf hrT hfT, ← bvParity_eq_odd_count]
  refine ⟨rfl, _, deliver_map_of_ok (syndromeOf_eq hwf hrT hfT) _ s, by simp, fun i p q hi hp hq => ?_⟩
  simp [elem, hi, hp, hq]

/-- Settles O34: a codeword has no mismatch, and every error position inverts the groups of its own bits. -/
theorem syndromeIsTheXorOfErrorPositions : Obligations.SyndromeIsTheXorOfErrorPositions := by
  intro L D E hwf _ hE hT
  refine ⟨_, syndromeOf_flipVec_codeword hwf D hE hT, by simp, uint_map_testBit (positionsXor_lt fun p hp => ?_)⟩
  exact (hT p hp).trans_le (wf_T_le hwf)

/-- Settles O56: the unit compares the same positions, and its second tree is the parity of `received`. -/
theorem syndromeUnitDrivesSyndrome : Obligations.SyndromeUnitDrivesSyndrome := by
  intro L received reference hwf
  rw [syndromeOf_eq hwf (busBits_length _) (busBits_length _), busBits_syndromeUnit,
    syndromeUnit_globalMismatch]
  simp only [elem_busBits]

end Sys2Proof.Proofs
end

