-- ==== Sys2Proof/Proofs/Decoder.lean ====
section
/-! DECODE by the bits of the received frame (43_decoder.md R181 to R188), and of a frame with inverted bits (R192). -/

namespace Sys2Proof.Machine

open Sys2Proof.Safety

variable {L : Layout}

/-! ## The decision table -/

/-- The first row of R185. -/
theorem decideStatus_eq_noError_iff {T n : Nat} {g : Bool} :
    decideStatus T n g = .noError ↔ n = 0 ∧ g = false := by
  unfold decideStatus
  split_ifs with h0 <;> simp [h0]

/-- The second row of R185, with the bound of R187. -/
theorem decideStatus_eq_singleErrorCorrected_iff {T n : Nat} {g : Bool} :
    decideStatus T n g = .singleErrorCorrected ↔ n ≠ 0 ∧ g = true ∧ n < T := by
  unfold decideStatus
  split_ifs with h0 h1 hT
  · simp [h0]
  · simp [Nat.not_lt.2 hT]
  · simpa using ⟨h1.1, h1.2, Nat.lt_of_not_ge hT⟩
  · simpa using fun hn hg => absurd ⟨hn, hg⟩ h1

/-- The other rows of R185, and R187. -/
theorem decideStatus_eq_doubleErrorDetected_iff {T n : Nat} {g : Bool} :
    decideStatus T n g = .doubleErrorDetected ↔ ¬ (n = 0 ∧ g = false) ∧ ¬ (n ≠ 0 ∧ g = true ∧ n < T) := by
  rw [← decideStatus_eq_noError_iff (T := T), ← decideStatus_eq_singleErrorCorrected_iff]
  cases decideStatus T n g <;> simp

/-- The status for a received word, by its bits alone. -/
def receivedStatus (L : Layout) (bit : Nat → Bool) : DecodeStatus :=
  decideStatus L.T (receivedSyndrome L bit) (oddOnes (List.range L.T) bit)

/-! ## The data of a word -/

/-- The DATA positions of a word, in the order of DPOS (R182). -/
theorem bvSelectWhere_isData {w : Bits} (hw : w.length = L.T) : bvSelectWhere w isData = L.dpos.map (elem w) := by
  rw [bvSelectWhere, hw, Layout.dpos]

theorem bvSelectWhere_isData_length (h : L.wf = true) {w : Bits} (hw : w.length = L.T) :
    (bvSelectWhere w isData).length = L.d := by
  rw [bvSelectWhere_isData hw, List.length_map, wf_dpos_length h]

theorem dataOf_length (h : L.wf = true) {w : Bits} (hw : w.length = L.T) : (dataOf w).length = L.s := by
  have hd := wf_d h
  rw [dataOf, bvToBytes_length, bvSelectWhere_isData_length h hw]
  omega

/-- Bit `j` of a word's data is the element at the `j`-th DATA position. -/
theorem bufBit_dataOf {w : Bits} (hw : w.length = L.T) {j p : Nat} (hp : L.dpos[j]? = some p) :
    bufBit (dataOf w) j = elem w p := by
  simp [dataOf, bufBit_bvToBytes, bvSelectWhere_isData hw, hp]

/-- The data of a word are whole bytes, so that parsing them adds no padding. -/
theorem bvFromBytes_dataOf (h : L.wf = true) {w : Bits} (hw : w.length = L.T) :
    bvFromBytes (dataOf w) = bvSelectWhere w isData := by
  have hd := wf_d h
  have hpad : 8 * ((L.d + 7) / 8) - L.d = 0 := by omega
  rw [dataOf, bvFromBytes_bvToBytes, bvSelectWhere_isData_length h hw, hpad]
  simp [bvOfSize]

/-- Blocks of `s` bytes with the same bit for every DATA position are equal. -/
theorem eq_of_bufBit_dpos (h : L.wf = true) {a b : Bytes} (ha : a.length = L.s) (hb : b.length = L.s)
    (hbits : ∀ j p, L.dpos[j]? = some p → bufBit a j = bufBit b j) : a = b := by
  refine eq_of_bufBit (ha.trans hb.symm) fun j => ?_
  rcases Nat.lt_or_ge j L.d with hj | hj
  · exact hbits j _ (List.getElem?_eq_getElem (wf_dpos_length h ▸ hj))
  · have hbyte : L.s ≤ j / 8 := by have := wf_d h; omega
    simp [bufBit, List.getElem?_eq_none (ha.trans_le hbyte), List.getElem?_eq_none (hb.trans_le hbyte)]

/-! ## What DECODE answers -/

/-- The reference word of a frame: the codeword of the data received (R183). -/
def referenceWord (L : Layout) (c : Bytes) : Bits := codeword L (bvSelectWhere (codewordOf L c) isData)

@[simp] theorem referenceWord_length (L : Layout) (c : Bytes) : (referenceWord L c).length = L.T :=
  codeword_length L _

/-- The block `m` and the status `st` are what R185 to R188 say of the frame `c`: the table's status, and the received
DATA bits with a corrected DATA position inverted. -/
structure IsDecoding (L : Layout) (c m : Bytes) (st : DecodeStatus) : Prop where
  status : st = receivedStatus L (bufBit c)
  length : m.length = L.s
  data : ∀ j p, L.dpos[j]? = some p →
    bufBit m j = xor (bufBit c p) (decide (st = .singleErrorCorrected ∧ p = receivedSyndrome L (bufBit c)))

theorem IsDecoding.unique (h : L.wf = true) {c m m' : Bytes} {st st' : DecodeStatus} (hm : IsDecoding L c m st)
    (hm' : IsDecoding L c m' st') : m = m' ∧ st = st' := by
  obtain rfl : st = st' := hm.status.trans hm'.status.symm
  exact ⟨eq_of_bufBit_dpos h hm.length hm'.length fun j p hp => by rw [hm.data j p hp, hm'.data j p hp], rfl⟩

/-- Inverting position `n` of a word inverts it there and nowhere else. -/
theorem elem_set_not {w : Bits} {p n : Nat} (hp : p < w.length) :
    elem (w.set n (!elem w n)) p = xor (elem w p) (decide (p = n)) := by
  rw [elem_set]
  by_cases hpn : p = n
  · subst hpn
    simp [hp]
  · simp [hpn, Ne.symm hpn]

section Received

variable (h : L.wf = true) {c : Bytes} (hc : L.OB ≤ c.length)
include h hc

/-- Element `p` of the received word is bit `p` of the frame. -/
theorem elem_codewordOf {p : Nat} (hp : p < L.T) : elem (codewordOf L c) p = bufBit c p := by
  rw [elem, List.getD_eq_getElem?_getD, codewordOf_getElem? h hc hp, Option.getD_some]

/-- SYNDROME against the reference word answers the mismatches of the frame's bits (R164(a)). -/
theorem syndromeOf_referenceWord :
    syndromeOf (codewordOf L c) (referenceWord L c)
      = .ok ((List.range L.k).map fun i => oddOnes (2 ^ i :: L.cover i) (bufBit c),
          oddOnes (List.range L.T) (bufBit c)) := by
  have hlen := codewordOf_length h hc
  have hgroup : ∀ i ∈ List.range L.k,
      oddOnes (2 ^ i :: L.cover i) (elem (codewordOf L c)) = oddOnes (2 ^ i :: L.cover i) (bufBit c) :=
    fun i hi => oddOnes_congr fun p hp =>
      elem_codewordOf h hc (lt_of_mem_group_cons_cover h (List.mem_range.1 hi) hp)
  have hparity : bvParity (codewordOf L c) = oddOnes (List.range L.T) (bufBit c) := by
    rw [bvParity_eq_oddOnes_range, hlen]
    exact oddOnes_congr fun p hp => elem_codewordOf h hc (List.mem_range.1 hp)
  rw [referenceWord, syndromeOf_reference h hlen, List.map_congr_left hgroup, hparity]

/-- ENCODE of the candidate data serializes the reference word (R183). -/
theorem encodeBlock_candidate :
    encodeBlock L (dataOf (codewordOf L c)) = .ok (bvToBytes (referenceWord L c)) := by
  have hlen := codewordOf_length h hc
  rw [encodeBlock_of_length h (dataOf_length h hlen), bvFromBytes_dataOf h hlen, referenceWord]

/-- The reference word holds the received bit at every DATA position (R183). -/
theorem elem_referenceWord {p : Nat} (hp : p < L.T) (hdata : isData p = true) :
    elem (referenceWord L c) p = bufBit c p := by
  rw [referenceWord, elem_codeword_bvSelectWhere (codewordOf_length h hc) hp hdata, elem_codewordOf h hc hp]

/-- DECODE's candidate is encoded again, compared, and taken from the corrected reference word where the table says so. -/
theorem decodeFrame_eq :
    decodeFrame L c = .ok
      (if receivedStatus L (bufBit c) = .singleErrorCorrected then
          dataOf ((referenceWord L c).set (receivedSyndrome L (bufBit c))
            (!elem (referenceWord L c) (receivedSyndrome L (bufBit c))))
        else dataOf (codewordOf L c),
        receivedStatus L (bufBit c)) := by
  simp only [decodeFrame, Nat.not_lt.2 hc, if_false, encodeBlock_candidate h hc,
    codewordOf_bvToBytes (referenceWord_length L c), syndromeOf_referenceWord h hc]
  exact decodeResult_ok (referenceWord_length L c)

/-- What DECODE answers for a frame of at least `OB` bytes is its decoding. -/
theorem exists_decodeFrame : ∃ m st, decodeFrame L c = .ok (m, st) ∧ IsDecoding L c m st := by
  have hlen := codewordOf_length h hc
  refine ⟨_, _, decodeFrame_eq h hc, rfl, ?_, fun j p hp => ?_⟩
  · split_ifs
    · exact dataOf_length h (by simp)
    · exact dataOf_length h hlen
  · obtain ⟨hT, hdata⟩ := (mem_dpos L p).1 (List.mem_of_getElem? hp)
    split_ifs with hst
    · rw [bufBit_dataOf (by simp) hp, elem_set_not (by simpa using hT), elem_referenceWord h hc hT hdata]
      simp [hst]
    · rw [bufBit_dataOf hlen hp, elem_codewordOf h hc hT]
      simp [hst]

/-- DECODE answers exactly the decoding of a frame of at least `OB` bytes. -/
theorem decodeFrame_eq_ok_iff {m : Bytes} {st : DecodeStatus} :
    decodeFrame L c = .ok (m, st) ↔ IsDecoding L c m st := by
  obtain ⟨m', st', hok, hdec⟩ := exists_decodeFrame h hc
  rw [hok, Except.ok.injEq, Prod.mk.injEq]
  constructor
  · rintro ⟨rfl, rfl⟩
    exact hdec
  · exact hdec.unique h

end Received

/-- DECODE of a frame that is read writes its decoding. -/
theorem exec_decode_of_isDecoding {s : State} {x y : Nat} {o : BytesOperand} {c m : Bytes} {st : DecodeStatus}
    (h : s.layout.wf = true) (hread : readBytes o s.layout.OB s = .ok c) (hc : s.layout.OB ≤ c.length)
    (hdec : IsDecoding s.layout c m st) :
    exec (.decode x y o) s = .next ((s.writeVar x (.bytes m)).writeVar y (.status st)) := by
  rw [exec_decode_of_read hread]
  exact deliver_map_of_ok ((decodeFrame_eq_ok_iff h hc).2 hdec) _ s

/-! ## A frame with inverted bits -/

@[simp] theorem flipFrame_length (c : Bytes) (E : List Nat) : (flipFrame c E).length = c.length := by
  rw [flipFrame, bvToBytes_length, List.length_map, List.length_range]
  omega

theorem bufBit_flipFrame {c : Bytes} {p : Nat} (hp : p < 8 * c.length) (E : List Nat) :
    bufBit (flipFrame c E) p = xor (bufBit c p) (decide (p ∈ E)) := by
  simp [flipFrame, bufBit_bvToBytes, hp]

theorem lt_of_mem_filter_lt {E : List Nat} {n p : Nat} (hp : p ∈ E.filter (· < n)) : p < n := by
  simpa using List.of_mem_filter hp

section Corrupted

variable (h : L.wf = true) {m c : Bytes} (hc : encodeBlock L m = .ok c) (E : List Nat)
include h hc

/-- Below `T` a corrupted frame holds the codeword, corrupted at the error positions below `T`. -/
theorem bufBit_flipFrame_eq_elem_flipVec {p : Nat} (hp : p < L.T) :
    bufBit (flipFrame c E) p = elem (flipVec (codeword L (bvFromBytes m)) (E.filter (· < L.T))) p := by
  have hport : p < 8 * c.length :=
    hp.trans_le (wf_T_le_frame_bits h (isFrame_of_encodeBlock h hc).length.ge)
  have hcw := hc
  rw [encodeBlock_of_length h (encodeBlock_ok_length hc), Except.ok.injEq] at hcw
  rw [bufBit_flipFrame hport, elem_flipVec (by simpa using hp), ← hcw, bufBit_bvToBytes, elem]
  simp [hp]

variable (hE : (E.filter (· < L.T)).Nodup)
include hE

/-- The syndrome of a corrupted frame is the exclusive or of the error positions below `T` (R165). -/
theorem receivedSyndrome_flipFrame :
    receivedSyndrome L (bufBit (flipFrame c E)) = positionsXor (E.filter (· < L.T)) := by
  have hgroup : ∀ i ∈ List.range L.k, oddOnes (2 ^ i :: L.cover i) (bufBit (flipFrame c E))
      = (positionsXor (E.filter (· < L.T))).testBit i := fun i hi => by
    have hk := List.mem_range.1 hi
    rw [← oddOnes_flipVec_codeword_group h (bvFromBytes m) hE (fun _ => lt_of_mem_filter_lt) hk]
    exact oddOnes_congr fun p hp =>
      bufBit_flipFrame_eq_elem_flipVec h hc E (lt_of_mem_group_cons_cover h hk hp)
  rw [receivedSyndrome, List.map_congr_left hgroup,
    uint_map_testBit (positionsXor_lt fun p hp => (lt_of_mem_filter_lt hp).trans_le (wf_T_le h))]

/-- The parity of a corrupted frame is that of the number of errors below `T`. -/
theorem oddOnes_range_flipFrame :
    oddOnes (List.range L.T) (bufBit (flipFrame c E)) = decide ((E.filter (· < L.T)).length % 2 = 1) := by
  rw [← bvParity_flipVec_codeword h (bvFromBytes m) hE fun _ => lt_of_mem_filter_lt, bvParity_eq_oddOnes_range,
    flipVec_length, codeword_length]
  exact oddOnes_congr fun p hp => bufBit_flipFrame_eq_elem_flipVec h hc E (List.mem_range.1 hp)

/-- The decoding of a corrupted frame, by the error positions alone: DECODE inverts the DATA bits in error, and the bit
of the position it corrects (R192). -/
theorem isDecoding_flipFrame {d : Bytes} {st : DecodeStatus}
    (hst : st = decideStatus L.T (positionsXor (E.filter (· < L.T))) (decide ((E.filter (· < L.T)).length % 2 = 1)))
    (hlen : d.length = L.s)
    (hdata : ∀ j p, L.dpos[j]? = some p → bufBit d j = xor (xor (bufBit m j) (decide (p ∈ E)))
      (decide (st = .singleErrorCorrected ∧ p = positionsXor (E.filter (· < L.T))))) :
    IsDecoding L (flipFrame c E) d st := by
  have hn := receivedSyndrome_flipFrame h hc E hE
  refine ⟨?_, hlen, fun j p hp => ?_⟩
  · rw [receivedStatus, hn, oddOnes_range_flipFrame h hc E hE, hst]
  · have hT := ((mem_dpos L p).1 (List.mem_of_getElem? hp)).1
    have hport := hT.trans_le (wf_T_le_frame_bits h (isFrame_of_encodeBlock h hc).length.ge)
    rw [hdata j p hp, hn, bufBit_flipFrame hport, encodeBlock_carries_data h hc hp]

end Corrupted

end Sys2Proof.Machine
end

