-- ==== Sys2Proof/Proofs/DecoderUnit.lean ====
section
/-! The decoder unit's inner wires, and what its ports drive (43_decoder.md R191). -/

namespace Sys2Proof.Machine

open Sys2Proof.Safety

variable {L : Layout}

theorem uint_busBits {n : Nat} (x : BitVec n) : uint (busBits x) = x.toNat := by
  refine Nat.eq_of_testBit_eq fun i => ?_
  rw [testBit_uint, BitVec.testBit_toNat, ← elem, elem_busBits]

/-- The DATA wiring of the unit: candidate data bit `j`. -/
def candWire (L : Layout) (codeIn : BitVec (8 * L.OB)) (j : Nat) : Bool := codeIn.getLsbD (L.dpos.getD j 0)

/-- The outputs of the `syndrome_compute_unit` inside the unit, for the received word and the encoder copy's word. -/
def innerSyndrome (L : Layout) (codeIn : BitVec (8 * L.OB)) : SyndromeOut L :=
  syndromeUnit L (bus L.T ((List.range L.T).map codeIn.getLsbD))
    (bus L.T ((List.range L.T).map (codeWire L (candWire L codeIn))))

/-- Whether the unit's conditional inverter is on. -/
def innerCorrects (L : Layout) (codeIn : BitVec (8 * L.OB)) : Bool :=
  decide ((innerSyndrome L codeIn).syndrome.toNat ≠ 0) && (innerSyndrome L codeIn).globalMismatch &&
    decide ((innerSyndrome L codeIn).syndrome.toNat < L.T)

theorem decoderUnit_dataOut (codeIn : BitVec (8 * L.OB)) :
    (decoderUnit L codeIn).dataOut = bus (8 * L.s) ((List.range L.d).map fun j => xor (candWire L codeIn j)
      (innerCorrects L codeIn && isData (innerSyndrome L codeIn).syndrome.toNat &&
        decide (j = didx (innerSyndrome L codeIn).syndrome.toNat))) := rfl

theorem decoderUnit_status (codeIn : BitVec (8 * L.OB)) :
    (decoderUnit L codeIn).status = if innerCorrects L codeIn then 0b01
      else if decide ((innerSyndrome L codeIn).syndrome.toNat = 0) && !(innerSyndrome L codeIn).globalMismatch
        then 0b00 else 0b10 := rfl

theorem candWire_of_getElem? {codeIn : BitVec (8 * L.OB)} {j p : Nat} (hp : L.dpos[j]? = some p) :
    candWire L codeIn j = codeIn.getLsbD p := by
  rw [candWire, List.getD_eq_getElem?_getD, hp, Option.getD_some]

/-- The encoder copy carries the received bit at every DATA position. -/
theorem codeWire_candWire {codeIn : BitVec (8 * L.OB)} {p : Nat} (hp : p < L.T) (hdata : isData p = true) :
    codeWire L (candWire L codeIn) p = codeIn.getLsbD p := by
  rw [codeWire_data hdata, candWire_of_getElem? (dpos_getElem?_didx hp hdata)]

/-- A bus as wide as the word carries position `p` at its bit `p`. -/
theorem getLsbD_bus_map_range {n p : Nat} (hp : p < n) (bit : Nat → Bool) :
    (bus n ((List.range n).map bit)).getLsbD p = bit p := by
  rw [bus_getLsbD]
  simp [elem, hp]

/-- The inner unit compares each group bit received with the parity of the received bits that it covers. -/
theorem innerSyndrome_toNat (h : L.wf = true) (codeIn : BitVec (8 * L.OB)) :
    (innerSyndrome L codeIn).syndrome.toNat = receivedSyndrome L codeIn.getLsbD := by
  rw [← uint_busBits, innerSyndrome, busBits_syndromeUnit, receivedSyndrome]
  congr 1
  refine List.map_congr_left fun i hi => ?_
  have hT := wf_group_lt h (List.mem_range.1 hi)
  rw [getLsbD_bus_map_range hT, getLsbD_bus_map_range hT, codeWire_group, oddOnes_cons]
  congr 1
  refine oddOnes_congr fun p hp => ?_
  obtain ⟨hpT, hdata, -⟩ := (mem_cover L i p).1 hp
  exact codeWire_candWire hpT hdata

theorem innerSyndrome_globalMismatch (codeIn : BitVec (8 * L.OB)) :
    (innerSyndrome L codeIn).globalMismatch = oddOnes (List.range L.T) codeIn.getLsbD := by
  rw [innerSyndrome, syndromeUnit_globalMismatch, bvParity_eq_oddOnes_range, busBits_length]
  refine oddOnes_congr fun p hp => ?_
  rw [elem_busBits, getLsbD_bus_map_range (List.mem_range.1 hp)]

section Driven

variable (h : L.wf = true) (codeIn : BitVec (8 * L.OB))
include h

/-- The inverter is on exactly in the row of the table that corrects. -/
theorem innerCorrects_eq :
    innerCorrects L codeIn = decide (receivedStatus L codeIn.getLsbD = .singleErrorCorrected) := by
  simp only [innerCorrects, innerSyndrome_toNat h, innerSyndrome_globalMismatch, receivedStatus,
    decideStatus_eq_singleErrorCorrected_iff, Bool.decide_and, Bool.decide_eq_true, Bool.and_assoc]

/-- The unit's status port carries the code of the table's status. -/
theorem decoderUnit_status_eq_code :
    (decoderUnit L codeIn).status = (receivedStatus L codeIn.getLsbD).code := by
  have hnone : (decide ((innerSyndrome L codeIn).syndrome.toNat = 0) && !(innerSyndrome L codeIn).globalMismatch)
      = decide (receivedStatus L codeIn.getLsbD = .noError) := by
    simp only [innerSyndrome_toNat h, innerSyndrome_globalMismatch, receivedStatus, decideStatus_eq_noError_iff,
      Bool.decide_and, Bool.decide_eq_false]
  rw [decoderUnit_status, hnone, innerCorrects_eq h]
  cases receivedStatus L codeIn.getLsbD with
  | noError => rfl
  | singleErrorCorrected => rfl
  | doubleErrorDetected => rfl

/-- The inverter of data bit `j` is on exactly where the table corrects the `j`-th DATA position. -/
theorem inverter_eq {j p : Nat} (hp : L.dpos[j]? = some p) :
    (innerCorrects L codeIn && isData (innerSyndrome L codeIn).syndrome.toNat &&
        decide (j = didx (innerSyndrome L codeIn).syndrome.toNat))
      = decide (receivedStatus L codeIn.getLsbD = .singleErrorCorrected ∧
          p = receivedSyndrome L codeIn.getLsbD) := by
  rw [innerCorrects_eq h, innerSyndrome_toNat h, Bool.eq_iff_iff]
  simp only [Bool.and_eq_true, decide_eq_true_eq]
  constructor
  · rintro ⟨⟨hst, hdata⟩, rfl⟩
    obtain ⟨-, -, hT⟩ := decideStatus_eq_singleErrorCorrected_iff.1 hst
    exact ⟨hst, Option.some_inj.1 (hp.symm.trans (dpos_getElem?_didx hT hdata))⟩
  · rintro ⟨hst, rfl⟩
    exact ⟨⟨hst, ((mem_dpos L _).1 (List.mem_of_getElem? hp)).2⟩, (didx_of_dpos_getElem? hp).symm⟩

/-- The decoder unit drives the decoding of its port's frame. -/
theorem isDecoding_decoderUnit :
    IsDecoding L (busBytes codeIn) (busBytes (decoderUnit L codeIn).dataOut) (receivedStatus L codeIn.getLsbD) := by
  have hbit : bufBit (busBytes codeIn) = codeIn.getLsbD := funext (bufBit_busBytes codeIn)
  refine ⟨by rw [hbit], by rw [busBytes_length]; omega, fun j p hp => ?_⟩
  have hj : j < L.d := by
    rw [← wf_dpos_length h]
    exact (List.getElem?_eq_some_iff.1 hp).1
  rw [hbit, bufBit_busBytes, decoderUnit_dataOut, ← wf_d h, getLsbD_bus_map_range hj, candWire_of_getElem? hp,
    inverter_eq h codeIn hp]

end Driven

end Sys2Proof.Machine
end

