-- ==== Sys2Proof/Proofs/DecoderObligations.lean ====
section
/-! The statements on DECODE's result, the flip of position 0, miscorrection and the decoder unit. -/

namespace Sys2Proof.Proofs

open Sys2Proof.Machine Sys2Proof.Safety

/-- Settles O35: every frame of at least `OB` bytes has a decoding, which has `s` bytes. -/
theorem decodeAlwaysReturnsAResult : Obligations.DecodeAlwaysReturnsAResult := by
  intro s x y o c hwf hread hc
  obtain ⟨m, st, -, hdec⟩ := exists_decodeFrame hwf hc
  exact ⟨m, st, exec_decode_of_isDecoding hwf hread hc hdec, hdec.length⟩

/-- Settles O36: the rules of a decoding are the statement's, its status row by row of the table. -/
theorem decodeFollowsTheDecisionTable : Obligations.DecodeFollowsTheDecisionTable := by
  rintro s x y o c hwf hread hc n g rfl rfl
  obtain ⟨m, st, -, hdec⟩ := exists_decodeFrame hwf hc
  refine ⟨m, st, exec_decode_of_isDecoding hwf hread hc hdec, fun hn hg => ?_, fun hn hg hT => ?_,
    fun hn hg hT => ?_, fun hn hg => ?_, fun hn hg => ?_, hdec.length, hdec.data⟩
  · rw [hdec.status]
    exact decideStatus_eq_noError_iff.2 ⟨hn, hg⟩
  · rw [hdec.status]
    exact decideStatus_eq_singleErrorCorrected_iff.2 ⟨hn, hg, hT⟩
  · rw [hdec.status]
    exact decideStatus_eq_doubleErrorDetected_iff.2 ⟨fun h0 => hn h0.1, fun h1 => Nat.not_lt.2 hT h1.2.2⟩
  · rw [hdec.status]
    exact decideStatus_eq_doubleErrorDetected_iff.2 ⟨fun h0 => hn h0.1, fun h1 => by simp [hg] at h1⟩
  · rw [hdec.status]
    exact decideStatus_eq_doubleErrorDetected_iff.2 ⟨fun h0 => by simp [hg] at h0, fun h1 => h1.1 hn⟩

/-- Settles O40: the one error position is 0, so the syndrome is 0 and the parity odd, and no DATA bit is in error. -/
theorem decodeReportsAFlipOfTheGlobalBit : Obligations.DecodeReportsAFlipOfTheGlobalBit := by
  intro s x y o m c hwf henc hread
  have hE : [0].filter (· < s.layout.T) = [0] := by
    have hT : 0 < s.layout.T := by rw [wf_T hwf]; omega
    simp [hT]
  have hc : s.layout.OB ≤ (flipFrame c [0]).length := by
    rw [flipFrame_length, (isFrame_of_encodeBlock hwf henc).length]
  refine exec_decode_of_isDecoding hwf hread hc (isDecoding_flipFrame hwf henc [0] (by simp [hE]) ?_
    (encodeBlock_ok_length henc) fun j p hp => ?_)
  · rw [hE]
    rfl
  · have hpos := ((isData_iff p).1 ((mem_dpos _ p).1 (List.mem_of_getElem? hp)).2).1
    simp [hpos.ne']

/-- Settles O58: the unit's ports drive the decoding of its frame. -/
theorem decoderUnitDrivesDecode : Obligations.DecoderUnitDrivesDecode := by
  intro L codeIn hwf
  have hc : L.OB ≤ (busBytes codeIn).length := by
    rw [busBytes_length]
    omega
  exact ⟨receivedStatus L codeIn.getLsbD, (decodeFrame_eq_ok_iff hwf hc).2 (isDecoding_decoderUnit hwf codeIn),
    (decoderUnit_status_eq_code hwf codeIn).symm⟩

/-- Settles O43: the two examples, evaluated. -/
theorem decodeCanMiscorrect : Obligations.DecodeCanMiscorrect := by
  unfold Obligations.DecodeCanMiscorrect
  decide

end Sys2Proof.Proofs
end

