-- ==== Sys2Proof/Proofs/Errors.lean ====
section
/-! What each error does: InvalidLength is recorded with no other effect, InvalidBlockSize refuses the configuration
(60_exceptions.md R221 to R223, R228). -/

namespace Sys2Proof.Machine

/-- An operation that goes on and changes the record of errors has recorded InvalidLength, and has had no other effect. -/
theorem Effect.eq_recordError_of_errors_ne {i : Instr} {s t : State} (h : Effect i s t) (ht : t.errors ≠ s.errors) :
    ∃ g r, t = s.recordError (.invalidLength g r) := by
  rcases h with ⟨ws, -, rfl, -⟩ | hrecorded | ⟨size, n, -, -, -, rfl⟩
  · exact absurd (writeVars_errors s ws) ht
  · exact hrecorded
  · exact absurd rfl ht

/-- LAYOUT of a size below 1 is refused. -/
theorem exec_layout_of_lt_one {size : SizeOperand} {s : State} {n : Nat} (hread : readSize size s = .ok n)
    (hn : n < 1) : exec (.layout size) s = .refused (.invalidBlockSize n) := by
  have hc : constructLayout n = .error (.invalidBlockSize n) := if_pos hn
  simp [exec, execLayout, hread, hc]

/-- DECODE of a frame below `OB` bytes is an error. -/
theorem decodeFrame_of_length_lt {L : Layout} {c : Bytes} (hc : c.length < L.OB) :
    decodeFrame L c = .error (.invalidLength c.length L.OB) := if_pos hc

end Sys2Proof.Machine
end

