-- ==== Sys2Proof/Proofs/ErrorObligations.lean ====
section
/-! The statements on the errors. -/

namespace Sys2Proof.Proofs

open Sys2Proof.Machine

/-- Settles O47: of the three effects of an operation that goes on, only a recorded error changes the record. -/
theorem anErrorHasNoOtherEffect : Obligations.AnErrorHasNoOtherEffect :=
  fun _ _ _ hexec hne => (exec_next hexec).eq_recordError_of_errors_ne hne

/-- Settles O2: no layout is constructed for the size, and its error is raised as a refusal. -/
theorem layoutRefusesBlockSizeBelowOne : Obligations.LayoutRefusesBlockSizeBelowOne :=
  fun _ _ _ hread hn => exec_layout_of_lt_one hread hn

/-- Settles O45: each of the three functions answers InvalidLength, which is raised as a record. -/
theorem invalidLengthIsAnErrorResult : Obligations.InvalidLengthIsAnErrorResult := by
  refine fun s => ⟨fun dst o m hread hm => ?encode, fun x y o c hread hc => ?decode,
    fun dst ov o v n hv hn hlt => ?padTo⟩
  case encode =>
    rw [exec_encode_of_read hread]
    exact deliver_map_of_error (encodeBlock_of_length_ne hm) _ s
  case decode =>
    rw [exec_decode_of_read hread]
    exact deliver_map_of_error (decodeFrame_of_length_lt hc) _ s
  case padTo =>
    rw [exec_bvPadTo_of_read hv hn]
    exact deliver_map_of_error (bvPadTo_of_lt hlt) _ s

end Sys2Proof.Proofs
end

