-- ==== Sys2Proof/Proofs/RoundTrip.lean ====
section
/-! Every parser of the decoder inverts the encoder of its form: it answers an operand exactly for the bytes that the
encoder writes for it, and leaves what follows (log entry 1). -/

namespace Sys2Proof

/-! ## Parsers that invert an encoder -/

/-- The parser `p` answers `x` for the bytes of `x`, whatever follows, and for no other bytes. -/
def Inverts {α : Type} (p : Bytes → Parsed α) (enc : α → Bytes) : Prop :=
  ∀ bs x rest, p bs = .ok (x, rest) ↔ bs = enc x ++ rest

section Combinators

variable {α β : Type} {p : Bytes → Parsed α} {enc : α → Bytes} (hp : Inverts p enc)
include hp

theorem Inverts.parse (x : α) (rest : Bytes) : p (enc x ++ rest) = .ok (x, rest) := (hp _ _ _).2 rfl

/-- What a sequence answers, its first parser inverted. -/
theorem Inverts.andThen_iff {k : α → Bytes → Parsed β} {bs : Bytes} {y : β × Bytes} :
    andThen (p bs) k = .ok y ↔ ∃ a bs', bs = enc a ++ bs' ∧ k a bs' = .ok y := by
  constructor
  · intro h
    obtain ⟨a, bs', ha, hk⟩ := andThen_eq_ok h
    exact ⟨a, bs', (hp _ _ _).1 ha, hk⟩
  · rintro ⟨a, bs', rfl, hk⟩
    rwa [hp.parse, andThen_ok]

/-- A constructor applied to what a parser answers. -/
theorem Inverts.map_iff {f : α → β} {bs : Bytes} {y : β} {rest : Bytes} :
    andThen (p bs) (fun a bs => .ok (f a, bs)) = .ok (y, rest) ↔ ∃ a, y = f a ∧ bs = enc a ++ rest := by
  rw [hp.andThen_iff]
  simp only [Except.ok.injEq, Prod.mk.injEq]
  exact ⟨fun ⟨a, _, hbs, hy, hrest⟩ => ⟨a, hy.symm, hrest ▸ hbs⟩, fun ⟨a, hy, hbs⟩ => ⟨a, _, hbs, hy.symm, rfl⟩⟩

theorem Inverts.parseMany (n : Nat) (bs : Bytes) (xs : List α) (rest : Bytes) :
    parseMany p n bs = .ok (xs, rest) ↔ xs.length = n ∧ bs = xs.flatMap enc ++ rest := by
  induction n generalizing bs xs with
  | zero => cases xs <;> simp [Sys2Proof.parseMany]
  | succ n ih =>
    rw [Sys2Proof.parseMany, hp.andThen_iff]
    constructor
    · rintro ⟨x, bs', rfl, h⟩
      obtain ⟨ys, bs'', hys, h⟩ := andThen_eq_ok h
      cases h
      obtain ⟨rfl, rfl⟩ := (ih _ _).1 hys
      simp
    · rintro ⟨hlen, rfl⟩
      cases xs with
      | nil => simp at hlen
      | cons x xs =>
        refine ⟨x, xs.flatMap enc ++ rest, by simp, ?_⟩
        rw [(ih _ xs).2 ⟨by simpa using hlen, rfl⟩, andThen_ok]

end Combinators

/-! ## Naturals, bytes and bits -/

/-- More fuel than the number writes nothing more. -/
theorem natBytesUpTo_eq_natBytes {fuel n : Nat} (h : n < fuel) : natBytesUpTo fuel n = natBytes n := by
  unfold natBytes
  induction n using Nat.strong_induction_on generalizing fuel with
  | _ n ih =>
    obtain ⟨fuel, rfl⟩ : ∃ f, fuel = f + 1 := ⟨fuel - 1, by omega⟩
    simp only [natBytesUpTo]
    split_ifs with hn
    · rfl
    · have hlt : n / 128 < n := by omega
      rw [ih _ hlt (by omega : n / 128 < fuel), ih _ hlt hlt]

theorem natBytes_of_lt {n : Nat} (h : n < 128) : natBytes n = [BitVec.ofNat 8 n] := by
  simp [natBytes, natBytesUpTo, h]

/-- A number of two digits or more: its last digit with the mark, then the others. -/
theorem natBytes_of_ge {n : Nat} (h : 128 ≤ n) :
    natBytes n = BitVec.ofNat 8 (n % 128 + 128) :: natBytes (n / 128) := by
  rw [← natBytesUpTo_eq_natBytes (by omega : n / 128 < n), natBytes, natBytesUpTo, if_neg (by omega)]

/-- The bytes of a natural are the only ones that are read as it. -/
theorem eq_natBytes_of_parseNat {bs rest : Bytes} {n : Nat} (h : parseNat bs = .ok (n, rest)) :
    bs = natBytes n ++ rest := by
  induction bs generalizing n with
  | nil => simp [parseNat] at h
  | cons b bs ih =>
    have hb := b.isLt
    unfold parseNat at h
    split_ifs at h with hlt
    · cases h
      rw [natBytes_of_lt hlt, BitVec.ofNat_toNat, BitVec.setWidth_eq, List.singleton_append]
    · cases hm : parseNat bs with
      | error e => simp [hm] at h
      | ok r =>
        obtain ⟨m, rest'⟩ := r
        simp only [hm] at h
        split_ifs at h with h0
        cases h
        have hmod : (b.toNat - 128 + 128 * m) % 128 + 128 = b.toNat := by omega
        have hdiv : (b.toNat - 128 + 128 * m) / 128 = m := by omega
        rw [natBytes_of_ge (by omega), hmod, hdiv, ih hm, BitVec.ofNat_toNat, BitVec.setWidth_eq, List.cons_append]

theorem inverts_parseNat : Inverts parseNat natBytes :=
  fun _ n rest => ⟨eq_natBytes_of_parseNat, fun h => h ▸ parseNat_natBytes n rest⟩

theorem inverts_parseByte : Inverts parseByte fun b => [b] := by
  intro bs b rest
  cases bs <;> simp [parseByte]

theorem inverts_parseBit : Inverts parseBit fun b => [bitByte b] := by
  intro bs b rest
  rw [parseBit, inverts_parseByte.andThen_iff]
  constructor
  · rintro ⟨byte, bs', rfl, h⟩
    split_ifs at h with h0 h1
    · cases h; simp [h0, bitByte]
    · cases h; simp [h1, bitByte]
  · rintro rfl
    exact ⟨_, _, rfl, by cases b <;> rfl⟩

/-! ## Lists -/

theorem inverts_parseList {α : Type} {p : Bytes → Parsed α} {enc : α → Bytes} (hp : Inverts p enc) :
    Inverts (parseList p) fun xs => natBytes xs.length ++ xs.flatMap enc := by
  intro bs xs rest
  simp only [parseList, inverts_parseNat.andThen_iff, hp.parseMany, List.append_assoc]
  constructor
  · rintro ⟨n, bs', rfl, rfl, rfl⟩
    rfl
  · rintro rfl
    exact ⟨_, _, rfl, rfl, rfl⟩

theorem inverts_bufBytes : Inverts (parseList parseByte) bufBytes := by
  have henc : bufBytes = fun buf => natBytes buf.length ++ buf.flatMap fun b => [b] := by
    funext buf
    simp [bufBytes]
  exact henc ▸ inverts_parseList inverts_parseByte

theorem inverts_vecBytes : Inverts (parseList parseBit) vecBytes := by
  have henc : vecBytes = fun v => natBytes v.length ++ v.flatMap fun b => [bitByte b] := by
    funext v
    simp [vecBytes, List.map_eq_flatMap]
  exact henc ▸ inverts_parseList inverts_parseBit

theorem inverts_natListBytes : Inverts (parseList parseNat) natListBytes := inverts_parseList inverts_parseNat


/-! ## Operand forms -/

theorem inverts_bytesOperandBytes : Inverts parseBytesOperand bytesOperandBytes := by
  intro bs o rest
  simp only [parseBytesOperand, inverts_parseByte.andThen_iff, inverts_parseNat.map_iff, inverts_bufBytes.map_iff,
    ite_eq_iff]
  cases o <;> simp [bytesOperandBytes]

theorem inverts_vecOperandBytes : Inverts parseVecOperand vecOperandBytes := by
  intro bs o rest
  simp only [parseVecOperand, inverts_parseByte.andThen_iff, inverts_parseNat.map_iff, inverts_vecBytes.map_iff,
    ite_eq_iff]
  cases o <;> simp [vecOperandBytes]

theorem inverts_natOperandBytes : Inverts parseNatOperand natOperandBytes := by
  intro bs o rest
  simp only [parseNatOperand, inverts_parseByte.andThen_iff, inverts_parseNat.map_iff, ite_eq_iff]
  cases o <;> simp [natOperandBytes]

theorem inverts_bitOperandBytes : Inverts parseBitOperand bitOperandBytes := by
  intro bs o rest
  simp only [parseBitOperand, inverts_parseByte.andThen_iff, inverts_parseNat.map_iff, ite_eq_iff]
  cases o <;> simp [bitOperandBytes]

theorem inverts_targetOperandBytes : Inverts parseTargetOperand targetOperandBytes := by
  intro bs o rest
  simp only [parseTargetOperand, inverts_parseByte.andThen_iff, inverts_vecBytes.map_iff, ite_eq_iff]
  cases o <;> simp [targetOperandBytes]

theorem inverts_sizeOperandBytes : Inverts parseSizeOperand sizeOperandBytes := by
  intro bs o rest
  simp only [parseSizeOperand, inverts_parseByte.andThen_iff, inverts_parseNat.map_iff, ite_eq_iff]
  cases o <;> simp [sizeOperandBytes]

theorem inverts_bitOrderBytes : Inverts parseBitOrder bitOrderBytes := by
  intro bs o rest
  rw [parseBitOrder, inverts_parseNat.map_iff]
  constructor
  · rintro ⟨n, rfl, rfl⟩
    cases n <;> rfl
  · rintro rfl
    cases o with
    | little => exact ⟨0, rfl, rfl⟩
    | other n => exact ⟨n + 1, rfl, rfl⟩

theorem inverts_predBytes : Inverts parsePred predBytes := by
  intro bs o rest
  simp only [parsePred, inverts_parseByte.andThen_iff, inverts_parseNat.map_iff, inverts_natListBytes.map_iff,
    ite_eq_iff]
  cases o <;> simp [predBytes]

/-! ## Instructions -/

/-- A row of the operation table answers for one code, with the operands in the order of their bytes; a second result has
a name of its own (`secondName_ne`). -/
theorem eq_of_parseOperands {op : Nat} {bs rest : Bytes} {i : Instr} (h : parseOperands op bs = some (.ok (i, rest))) :
    op = (opCode i).toNat ∧ bs = operandBytes i ++ rest ∧ i.wellFormed = true := by
  unfold parseOperands at h
  split at h
  all_goals
    simp only [Option.some.injEq, inverts_parseNat.andThen_iff, inverts_bytesOperandBytes.andThen_iff,
      inverts_vecOperandBytes.andThen_iff, inverts_natOperandBytes.andThen_iff, inverts_bitOperandBytes.andThen_iff,
      inverts_targetOperandBytes.andThen_iff, inverts_sizeOperandBytes.andThen_iff, inverts_bitOrderBytes.andThen_iff,
      inverts_predBytes.andThen_iff, Except.ok.injEq, Prod.mk.injEq, reduceCtorEq] at h
  all_goals grind [opCode, operandBytes, Instr.wellFormed, secondName_ne, secondCode_secondName]

/-- The row of an operation reads back its operands, a second result's name through its number. -/
theorem parseOperands_operandBytes {i : Instr} (h : i.wellFormed = true) (rest : Bytes) :
    parseOperands (opCode i).toNat (operandBytes i ++ rest) = some (.ok (i, rest)) := by
  cases i with
  | decode m st c =>
    have hname := secondName_secondCode (of_decide_eq_true h)
    simp [parseOperands, opCode, operandBytes, hname, inverts_bytesOperandBytes.parse]
  | syndrome syn g r f =>
    have hname := secondName_secondCode (of_decide_eq_true h)
    simp [parseOperands, opCode, operandBytes, hname, inverts_vecOperandBytes.parse]
  | _ =>
    simp [parseOperands, opCode, operandBytes, inverts_bytesOperandBytes.parse, inverts_vecOperandBytes.parse,
      inverts_natOperandBytes.parse, inverts_bitOperandBytes.parse, inverts_targetOperandBytes.parse,
      inverts_sizeOperandBytes.parse, inverts_bitOrderBytes.parse, inverts_predBytes.parse]

/-- The decoder answers an instruction exactly for its own bytes, and only well-formed ones. -/
theorem decodeInstr_eq_ok_iff {bs rest : Bytes} {i : Instr} :
    decodeInstr bs = .ok (i, rest) ↔ bs = encodeInstr i ++ rest ∧ i.wellFormed = true := by
  constructor
  · intro h
    cases bs with
    | nil => simp [decodeInstr] at h
    | cons b bs =>
      cases hops : parseOperands b.toNat bs with
      | none => simp [decodeInstr, hops] at h
      | some r =>
        obtain rfl : r = .ok (i, rest) := by simpa [decodeInstr, hops] using h
        obtain ⟨hop, rfl, hwf⟩ := eq_of_parseOperands hops
        exact ⟨by rw [BitVec.eq_of_toNat_eq hop, encodeInstr, List.cons_append], hwf⟩
  · rintro ⟨rfl, hwf⟩
    simp [encodeInstr, decodeInstr, parseOperands_operandBytes hwf]

end Sys2Proof
end

