-- ==== Sys2Proof/Proofs/Effects.lean ====
section
/-! What an operation leaves unchanged, what a step keeps, how many steps a program has, and which operations fault
(10_state.md R20, 20_memory.md R48, 30_encoding.md R74, 60_exceptions.md R223 to R228). -/

namespace Sys2Proof.Machine

open Sys2Proof.Safety

/-! ## The frame of an operation -/

section Frame

variable {i : Instr} {s t : State} (h : Effect i s t)
include h

theorem Effect.readVar_eq {x : Nat} (hx : x ∉ i.dests) : t.readVar x = s.readVar x := by
  obtain ⟨ws, hws, rfl, -⟩ | ⟨g, r, rfl⟩ | ⟨z, n, -, -, -, rfl⟩ := h
  · exact readVar_writeVars_other s ws x (hws ▸ hx)
  · rfl
  · rfl

theorem Effect.program_eq : t.program = s.program := by
  obtain ⟨ws, -, rfl, -⟩ | ⟨g, r, rfl⟩ | ⟨z, n, -, -, -, rfl⟩ := h
  · exact writeVars_program s ws
  · rfl
  · rfl

theorem Effect.line_eq : t.line = s.line := by
  obtain ⟨ws, -, rfl, -⟩ | ⟨g, r, rfl⟩ | ⟨z, n, -, -, -, rfl⟩ := h
  · exact writeVars_line s ws
  · rfl
  · rfl

theorem Effect.errors_eq_or : t.errors = s.errors ∨ ∃ e, t.errors = s.errors ++ [(s.line, e)] := by
  obtain ⟨ws, -, rfl, -⟩ | ⟨g, r, rfl⟩ | ⟨z, n, -, -, -, rfl⟩ := h
  · exact .inl (writeVars_errors s ws)
  · exact .inr ⟨.invalidLength g r, rfl⟩
  · exact .inl rfl

theorem Effect.vars_eq_of_layout {z : SizeOperand} (hi : i = .layout z) : t.vars = s.vars := by
  obtain ⟨ws, -, -, hne⟩ | ⟨g, r, rfl⟩ | ⟨z, n, -, -, -, rfl⟩ := h
  · exact absurd hi (hne z)
  · rfl
  · rfl

end Frame

/-! ## What a step keeps -/

section Invariant

variable {s : State} (hs : Inv s)
include hs

theorem inv_advance (rest : Bytes) : Inv (s.advance rest) where
  layout := hs.layout
  vars := hs.vars
  rising := ⟨hs.rising.1, fun x hx => (hs.rising.2 x hx).trans (Nat.lt_succ_self s.line)⟩
  lengths := hs.lengths

theorem inv_writeVars (ws : List (Nat × Value)) : Inv (s.writeVars ws) where
  layout := by simpa using hs.layout
  vars := varsWf_writeVars hs.vars ws
  rising := by simpa [errorLinesRise] using hs.rising
  lengths := by simpa [errorsAreLengths] using hs.lengths

theorem inv_setLayout {n : Nat} (hn : 1 ≤ n) : Inv { s with layout := layoutOf n } where
  layout := layoutOf_wf hn
  vars := hs.vars
  rising := hs.rising
  lengths := hs.lengths

/-- An error stands last in the record, under a line above those before it; the next line is above it. -/
theorem inv_recordError_advance (g r : Nat) (rest : Bytes) :
    Inv ((s.recordError (.invalidLength g r)).advance rest) where
  layout := hs.layout
  vars := hs.vars
  rising := by
    obtain ⟨hpair, hlt⟩ := hs.rising
    constructor
    · simp only [advance_errors, recordError_errors, List.map_append, List.map_cons, List.map_nil]
      refine List.pairwise_append.2 ⟨hpair, List.pairwise_singleton _ _, fun x hx y hy => ?_⟩
      obtain ⟨e, he, rfl⟩ := List.mem_map.1 hx
      exact List.mem_singleton.1 hy ▸ hlt e he
    · intro x hx
      simp only [advance_errors, recordError_errors, List.mem_append, List.mem_singleton] at hx
      obtain hx | rfl := hx
      · exact (hlt x hx).trans (Nat.lt_succ_self s.line)
      · exact Nat.lt_succ_self s.line
  lengths := by
    intro x hx
    simp only [advance_errors, recordError_errors, List.mem_append, List.mem_singleton] at hx
    obtain hx | rfl := hx
    · exact hs.lengths x hx
    · rfl

/-- Whatever an operation did, the invariant holds on the next line. -/
theorem Effect.inv_advance {i : Instr} {t : State} (h : Effect i s t) (rest : Bytes) : Inv (t.advance rest) := by
  obtain ⟨ws, -, rfl, -⟩ | ⟨g, r, rfl⟩ | ⟨z, n, -, -, hn, rfl⟩ := h
  · exact Machine.inv_advance (inv_writeVars hs ws) rest
  · exact inv_recordError_advance hs g r rest
  · exact Machine.inv_advance (inv_setLayout hs hn) rest

end Invariant

/-! ## How many steps a program has -/

/-- A step that goes on has left fewer bytes of the program. -/
theorem program_length_lt_of_step {s t : State} (h : step s = .next t) : t.program.length < s.program.length := by
  obtain ⟨i, rest, u, hdec, -, rfl⟩ := step_next h
  rw [(decodeInstr_eq_ok_iff.1 hdec).1, advance_program, encodeInstr, List.cons_append, List.length_cons,
    List.length_append]
  omega

/-- A run that goes on has taken a first step that goes on, and the others from there. -/
theorem run_succ_next {n : Nat} {s t : State} (h : Host.Core.run core (n + 1) s = .next t) :
    ∃ u, step s = .next u ∧ Host.Core.run core n u = .next t := by
  have hcore : core.step s = step s := rfl
  simp only [Host.Core.run, hcore] at h
  cases hstep : step s with
  | next u => exact ⟨u, rfl, by simpa [hstep] using h⟩
  | fault e => simp [hstep] at h
  | refused r => simp [hstep] at h

/-- Every step of a run takes a byte of the program at least. -/
theorem run_length_le {n : Nat} {s t : State} (h : Host.Core.run core n s = .next t) :
    n + t.program.length ≤ s.program.length := by
  induction n generalizing s with
  | zero =>
    cases h
    simp
  | succ n ih =>
    obtain ⟨u, hstep, hrun⟩ := run_succ_next h
    have hlt := program_length_lt_of_step hstep
    have hle := ih hrun
    omega


/-! ## The errors of each function -/

theorem bvGet_error {v : Bits} {i : Nat} {e : OpError} (h : bvGet v i = .error e) :
    e = .indexOutOfRange i v.length ∧ i ≥ v.length := by
  unfold bvGet at h
  split_ifs at h with hi
  exact ⟨(Except.error.inj h).symm, hi⟩

theorem bvSet_error {v : Bits} {i : Nat} {b : Bool} {e : OpError} (h : bvSet v i b = .error e) :
    e = .indexOutOfRange i v.length ∧ i ≥ v.length := by
  unfold bvSet at h
  split_ifs at h with hi
  exact ⟨(Except.error.inj h).symm, hi⟩

theorem bvXor_error {a b : Bits} {e : OpError} (h : bvXor a b = .error e) :
    e = .lengthMismatch a.length b.length ∧ a.length ≠ b.length := by
  unfold bvXor at h
  split_ifs at h with hl
  exact ⟨(Except.error.inj h).symm, hl⟩

theorem bvPadTo_error {v : Bits} {n : Nat} {e : OpError} (h : bvPadTo v n = .error e) :
    e = .invalidLength n v.length := by
  unfold bvPadTo at h
  split_ifs at h
  exact (Except.error.inj h).symm

theorem encodeBlock_error {L : Layout} (hL : L.wf = true) {m : Bytes} {e : OpError} (h : encodeBlock L m = .error e) :
    e = .invalidLength m.length L.s := by
  by_cases hm : m.length = L.s
  · simp [encodeBlock_of_length hL hm] at h
  · rw [encodeBlock_of_length_ne hm] at h
    exact (Except.error.inj h).symm

theorem decodeFrame_error {L : Layout} (hL : L.wf = true) {c : Bytes} {e : OpError} (h : decodeFrame L c = .error e) :
    e = .invalidLength c.length L.OB := by
  rcases Nat.lt_or_ge c.length L.OB with hc | hc
  · rw [decodeFrame_of_length_lt hc] at h
    exact (Except.error.inj h).symm
  · simp [decodeFrame_eq hL hc] at h

theorem codewordLength_ok {L : Layout} {v w : Bits} (h : codewordLength L v = .ok w) : w.length = L.T := by
  unfold codewordLength at h
  split_ifs at h with hv
  exact Except.ok.inj h ▸ hv

/-! ## Where an operation faults -/

theorem withOperand_fault {α : Type} {r : Except Refusal α} {k : α → Result} {e : Fault}
    (h : withOperand r k = .fault e) : ∃ a, r = .ok a ∧ k a = .fault e := by
  cases r with
  | ok a => exact ⟨a, rfl, h⟩
  | error _ => simp at h

theorem deliver_map_fault {α : Type} {r : Except OpError α} {f : α → List (Nat × Value)} {s : State} {e : Fault}
    (h : deliver (r.map f) s = .fault e) : ∃ err, r = .error err ∧ raise err s = .fault e := by
  cases r with
  | ok _ => simp [Except.map] at h
  | error err => exact ⟨err, rfl, h⟩

/-- The operations that can fault, each with its fault (R224, R225). -/
def MayFault (i : Instr) (e : Fault) : Prop :=
  (∃ k n, e = .indexOutOfRange k n ∧ k ≥ n ∧
    ((∃ dst v o, i = .bvGet dst v o) ∨ ∃ x old o b, i = .bvSet x old o b)) ∨
  ∃ a b, e = .lengthMismatch a b ∧ a ≠ b ∧ ∃ dst u v, i = .bvXor dst u v

/-- The one inversion lemma of `exec` for faults. -/
theorem exec_fault {i : Instr} {s : State} {e : Fault} (hL : s.layout.wf = true) (h : exec i s = .fault e) :
    MayFault i e := by
  cases i with
  | encode c m =>
    obtain ⟨_, -, h⟩ := withOperand_fault h
    obtain ⟨err, herr, h⟩ := deliver_map_fault h
    simp [encodeBlock_error hL herr] at h
  | decode m st c =>
    obtain ⟨_, -, h⟩ := withOperand_fault h
    obtain ⟨err, herr, h⟩ := deliver_map_fault h
    simp [decodeFrame_error hL herr] at h
  | syndrome syn g r f =>
    obtain ⟨_, -, h⟩ := withOperand_fault h
    obtain ⟨_, -, h⟩ := withOperand_fault h
    obtain ⟨_, hr, h⟩ := withOperand_fault h
    obtain ⟨_, hf, h⟩ := withOperand_fault h
    obtain ⟨err, herr, -⟩ := deliver_map_fault h
    simp [syndromeOf_of_length ((codewordLength_ok hr).trans (codewordLength_ok hf).symm)] at herr
  | bvXor x a b =>
    obtain ⟨_, -, h⟩ := withOperand_fault h
    obtain ⟨_, -, h⟩ := withOperand_fault h
    obtain ⟨err, herr, h⟩ := deliver_map_fault h
    obtain ⟨rfl, hl⟩ := bvXor_error herr
    cases h
    exact .inr ⟨_, _, rfl, hl, x, a, b, rfl⟩
  | bvParity b v =>
    obtain ⟨_, -, h⟩ := withOperand_fault h
    simp at h
  | bvSelectWhere w v p =>
    obtain ⟨_, -, h⟩ := withOperand_fault h
    simp at h
  | bvPadTo w v n =>
    obtain ⟨_, -, h⟩ := withOperand_fault h
    obtain ⟨_, -, h⟩ := withOperand_fault h
    obtain ⟨err, herr, h⟩ := deliver_map_fault h
    simp [bvPadTo_error herr] at h
  | bvFromBytes v buf order =>
    obtain ⟨_, -, h⟩ := withOperand_fault h
    cases order <;> simp at h
  | bvToBytes buf v =>
    obtain ⟨_, -, h⟩ := withOperand_fault h
    simp at h
  | bvGet b v j =>
    obtain ⟨_, -, h⟩ := withOperand_fault h
    obtain ⟨_, -, h⟩ := withOperand_fault h
    obtain ⟨err, herr, h⟩ := deliver_map_fault h
    obtain ⟨rfl, hj⟩ := bvGet_error herr
    cases h
    exact .inl ⟨_, _, rfl, hj, .inl ⟨b, v, j, rfl⟩⟩
  | bvSet v old j b =>
    obtain ⟨_, -, h⟩ := withOperand_fault h
    obtain ⟨_, -, h⟩ := withOperand_fault h
    obtain ⟨_, -, h⟩ := withOperand_fault h
    obtain ⟨err, herr, h⟩ := deliver_map_fault h
    obtain ⟨rfl, hj⟩ := bvSet_error herr
    cases h
    exact .inl ⟨_, _, rfl, hj, .inr ⟨v, old, j, b, rfl⟩⟩
  | bvOfSize v n =>
    obtain ⟨_, -, h⟩ := withOperand_fault h
    simp at h
  | layout z =>
    obtain ⟨n, -, h⟩ := withOperand_fault h
    by_cases hn : n < 1 <;> simp [constructLayout, hn] at h

end Sys2Proof.Machine
end

