-- ==== Sys2Proof/Proofs/Changes.lean ====
section
/-! An operation as a change that the layout and the variables it reads fix, whatever else the state holds (20_memory.md
R48, R50, R53). -/

namespace Sys2Proof.Machine

/-! ## Changes -/

/-- What an operation can ask for. -/
inductive Change where
  | write (ws : List (Nat × Value))
  | record (e : OpError)
  | setLayout (L : Layout)
  | fault (e : Fault)
  | refuse (r : Refusal)

/-- What is asked for, done at a state. -/
def Change.apply : Change → State → Result
  | .write ws, s => .next (s.writeVars ws)
  | .record e, s => .next (s.recordError e)
  | .setLayout L, s => .next { s with layout := L }
  | .fault e, _ => .fault e
  | .refuse r, _ => .refused r

/-- The change is one that `i` can ask for: it writes the names of `i`, and sets the layout only for LAYOUT. -/
def Change.Fits (i : Instr) : Change → Prop
  | .write ws => ws.map Prod.fst = i.dests
  | .setLayout _ => ∃ z, i = .layout z
  | .record _ => True
  | .fault _ => True
  | .refuse _ => True

/-- The two answers are one change that `i` can ask for, done at two states. -/
def SameChange (i : Instr) (s₁ s₂ : State) (r₁ r₂ : Result) : Prop :=
  ∃ c : Change, c.Fits i ∧ r₁ = c.apply s₁ ∧ r₂ = c.apply s₂

/-! ## The shared operations ask for a change that no state decides -/

section Shared

variable {i : Instr} (s₁ s₂ : State)

theorem sameChange_refused (r : Refusal) : SameChange i s₁ s₂ (.refused r) (.refused r) := ⟨.refuse r, trivial, rfl, rfl⟩

theorem sameChange_raise (e : OpError) : SameChange i s₁ s₂ (raise e s₁) (raise e s₂) := by
  cases e with
  | invalidBlockSize n => exact sameChange_refused s₁ s₂ _
  | invalidLength g r => exact ⟨.record (.invalidLength g r), trivial, rfl, rfl⟩
  | indexOutOfRange j n => exact ⟨.fault (.indexOutOfRange j n), trivial, rfl, rfl⟩
  | lengthMismatch a b => exact ⟨.fault (.lengthMismatch a b), trivial, rfl, rfl⟩

theorem sameChange_deliver_ok {ws : List (Nat × Value)} (hws : ws.map Prod.fst = i.dests) :
    SameChange i s₁ s₂ (deliver (.ok ws) s₁) (deliver (.ok ws) s₂) := ⟨.write ws, hws, rfl, rfl⟩

theorem sameChange_deliver_map {α : Type} (r : Except OpError α) {f : α → List (Nat × Value)}
    (hf : ∀ a, (f a).map Prod.fst = i.dests) :
    SameChange i s₁ s₂ (deliver (r.map f) s₁) (deliver (r.map f) s₂) := by
  cases r with
  | ok a => exact sameChange_deliver_ok s₁ s₂ (hf a)
  | error e => exact sameChange_raise s₁ s₂ e

variable {s₁ s₂}

/-- An operand that both states read alike leaves the change to what follows it. -/
theorem sameChange_withOperand {α : Type} {r₁ r₂ : Except Refusal α} {k₁ k₂ : α → Result} (hr : r₁ = r₂)
    (hk : ∀ a, SameChange i s₁ s₂ (k₁ a) (k₂ a)) : SameChange i s₁ s₂ (withOperand r₁ k₁) (withOperand r₂ k₂) := by
  subst hr
  cases r₁ with
  | ok a => exact hk a
  | error r => exact sameChange_refused s₁ s₂ r

end Shared

/-! ## Operands depend on the layout and their own variable -/

/-- The two states have the same values under the names `xs`. -/
def AgreeOn (xs : List Nat) (s₁ s₂ : State) : Prop := ∀ x ∈ xs, s₁.readVar x = s₂.readVar x

theorem agreeOn_append {xs ys : List Nat} {s₁ s₂ : State} :
    AgreeOn (xs ++ ys) s₁ s₂ ↔ AgreeOn xs s₁ s₂ ∧ AgreeOn ys s₁ s₂ := List.forall_mem_append

section Operands

variable {s₁ s₂ : State}

theorem readAs_congr {α : Type} (as : Value → Option α) {x : Nat} (h : AgreeOn [x] s₁ s₂) :
    readAs as x s₁ = readAs as x s₂ := by
  rw [readAs, readAs, h x (List.mem_singleton_self x)]

theorem readBytes_congr {o : BytesOperand} {w₁ w₂ : Nat} (hw : w₁ = w₂) (h : AgreeOn o.vars s₁ s₂) :
    readBytes o w₁ s₁ = readBytes o w₂ s₂ := by
  subst hw
  cases o with
  | zeros => rfl
  | lit buf => rfl
  | var x => exact readAs_congr asBytes h

theorem readVec_congr {o : VecOperand} (hL : s₁.layout = s₂.layout) (h : AgreeOn o.vars s₁ s₂) :
    readVec o s₁ = readVec o s₂ := by
  cases o with
  | zeros => simp [hL]
  | lit v => rfl
  | var x => exact readAs_congr asVec h

theorem readNat_congr {o : NatOperand} (h : AgreeOn o.vars s₁ s₂) : readNat o s₁ = readNat o s₂ := by
  cases o with
  | lit n => rfl
  | var x => exact readAs_congr asNat h

theorem readBit_congr {o : BitOperand} (h : AgreeOn o.vars s₁ s₂) : readBit o s₁ = readBit o s₂ := by
  cases o with
  | lit n => rfl
  | var x => rw [readBit, readBit, readAs_congr asNat h]

theorem readSize_congr {o : SizeOperand} (h : AgreeOn o.vars s₁ s₂) : readSize o s₁ = readSize o s₂ := by
  cases o with
  | default => rfl
  | lit n => rfl
  | var x => exact readAs_congr asNat h

end Operands

/-! ## What a variable as a bit reads, and the lengths that SYNDROME refuses -/

/-- BV_SET's value in a variable is read as a number first. -/
theorem readBit_var_of_nat {s : State} {x n : Nat} (h : readAs asNat x s = .ok n) : readBit (.var x) s = bitOfNat n := by
  rw [readBit, h]

theorem readBit_var_of_error {s : State} {x : Nat} {r : Refusal} (h : readAs asNat x s = .error r) :
    readBit (.var x) s = .error r := by
  rw [readBit, h]

theorem bitOfNat_toNat (b : Bool) : bitOfNat b.toNat = .ok b := by cases b <;> rfl

theorem codewordLength_of_ne {L : Layout} {v : Bits} (hv : v.length ≠ L.T) :
    codewordLength L v = .error (.notCodewordLength v.length L.T) := if_neg hv

/-! ## Every operation -/

/-- The one lemma on `exec` at two states: they share a change where they share the layout and what is read. -/
theorem exec_sameChange {i : Instr} {s₁ s₂ : State} (hL : s₁.layout = s₂.layout) (h : AgreeOn i.sources s₁ s₂) :
    SameChange i s₁ s₂ (exec i s₁) (exec i s₂) := by
  cases i with
  | encode c m =>
    refine sameChange_withOperand (readBytes_congr (congrArg Layout.s hL) h) fun _ => ?_
    rw [hL]
    exact sameChange_deliver_map s₁ s₂ _ fun _ => rfl
  | decode m st c =>
    refine sameChange_withOperand (readBytes_congr (congrArg Layout.OB hL) h) fun _ => ?_
    rw [hL]
    exact sameChange_deliver_map s₁ s₂ _ fun _ => rfl
  | syndrome syn g r f =>
    obtain ⟨hr, hf⟩ := agreeOn_append.1 h
    exact sameChange_withOperand (readVec_congr hL hr) fun _ => sameChange_withOperand (readVec_congr hL hf) fun _ =>
      sameChange_withOperand (by rw [hL]) fun _ => sameChange_withOperand (by rw [hL]) fun _ =>
        sameChange_deliver_map s₁ s₂ _ fun _ => rfl
  | bvXor x a b =>
    obtain ⟨ha, hb⟩ := agreeOn_append.1 h
    exact sameChange_withOperand (readVec_congr hL ha) fun _ => sameChange_withOperand (readVec_congr hL hb) fun _ =>
      sameChange_deliver_map s₁ s₂ _ fun _ => rfl
  | bvParity b v =>
    exact sameChange_withOperand (readVec_congr hL h) fun _ => sameChange_deliver_ok s₁ s₂ rfl
  | bvSelectWhere w v p =>
    refine sameChange_withOperand (readVec_congr hL h) fun _ => ?_
    rw [hL]
    exact sameChange_deliver_ok s₁ s₂ rfl
  | bvPadTo w v n =>
    obtain ⟨hv, hn⟩ := agreeOn_append.1 h
    exact sameChange_withOperand (readVec_congr hL hv) fun _ => sameChange_withOperand (readNat_congr hn) fun _ =>
      sameChange_deliver_map s₁ s₂ _ fun _ => rfl
  | bvFromBytes v buf order =>
    refine sameChange_withOperand (readBytes_congr (congrArg Layout.OB hL) h) fun _ => ?_
    cases order with
    | little => exact sameChange_deliver_ok s₁ s₂ rfl
    | other n => exact sameChange_refused s₁ s₂ _
  | bvToBytes buf v =>
    exact sameChange_withOperand (readVec_congr hL h) fun _ => sameChange_deliver_ok s₁ s₂ rfl
  | bvGet b v j =>
    obtain ⟨hv, hj⟩ := agreeOn_append.1 h
    exact sameChange_withOperand (readVec_congr hL hv) fun _ => sameChange_withOperand (readNat_congr hj) fun _ =>
      sameChange_deliver_map s₁ s₂ _ fun _ => rfl
  | bvSet v old j b =>
    obtain ⟨hvj, hb⟩ := agreeOn_append.1 h
    obtain ⟨hv, hj⟩ := agreeOn_append.1 hvj
    exact sameChange_withOperand (readVec_congr hL hv) fun _ => sameChange_withOperand (readNat_congr hj) fun _ =>
      sameChange_withOperand (readBit_congr hb) fun _ => sameChange_deliver_map s₁ s₂ _ fun _ => rfl
  | bvOfSize v n =>
    exact sameChange_withOperand (readNat_congr h) fun _ => sameChange_deliver_ok s₁ s₂ rfl
  | layout z =>
    refine sameChange_withOperand (readSize_congr h) fun n => ?_
    cases constructLayout n with
    | ok L => exact ⟨.setLayout L, ⟨z, rfl⟩, rfl, rfl⟩
    | error e => exact sameChange_raise s₁ s₂ e

/-! ## Results written -/

/-- Where a name is written, the value it then has is fixed by the writes. -/
theorem readVar_writeVars_mem {ws : List (Nat × Value)} {x : Nat} (hx : x ∈ ws.map Prod.fst) (s₁ s₂ : State) :
    (s₁.writeVars ws).readVar x = (s₂.writeVars ws).readVar x := by
  induction ws generalizing s₁ s₂ with
  | nil => simp at hx
  | cons w ws ih =>
    rw [writeVars_cons, writeVars_cons]
    by_cases hmem : x ∈ ws.map Prod.fst
    · exact ih hmem _ _
    · obtain rfl : x = w.1 := by simpa [hmem] using hx
      rw [readVar_writeVars_other _ _ _ hmem, readVar_writeVars_other _ _ _ hmem, readVar_writeVar, readVar_writeVar,
        if_pos rfl, if_pos rfl]

section Canonical

variable {s : State} (hs : varsWf s.vars = true)
include hs

/-- Writes to two names commute on a canonical store. -/
theorem writeVar_comm {x y : Nat} (hxy : x ≠ y) (u v : Value) :
    (s.writeVar x u).writeVar y v = (s.writeVar y v).writeVar x u := by
  simp only [State.writeVar, insertVar_comm hs hxy]

theorem writeVars_writeVar_comm {ws : List (Nat × Value)} {x : Nat} (hx : x ∉ ws.map Prod.fst) (v : Value) :
    (s.writeVars ws).writeVar x v = (s.writeVar x v).writeVars ws := by
  induction ws generalizing s with
  | nil => rfl
  | cons w ws ih =>
    simp only [List.map_cons, List.mem_cons, not_or] at hx
    rw [writeVars_cons, writeVars_cons, ih (varsWf_insertVar hs _ _) hx.2, writeVar_comm hs (Ne.symm hx.1)]

/-- So do the results of two operations that share no name. -/
theorem writeVars_comm {ws us : List (Nat × Value)} (hdisj : ∀ x ∈ ws.map Prod.fst, x ∉ us.map Prod.fst) :
    (s.writeVars ws).writeVars us = (s.writeVars us).writeVars ws := by
  induction ws generalizing s with
  | nil => rfl
  | cons w ws ih =>
    simp only [List.map_cons, List.forall_mem_cons] at hdisj
    rw [writeVars_cons, writeVars_cons, ih (varsWf_insertVar hs _ _) hdisj.2, writeVars_writeVar_comm hs hdisj.1]

/-- Results with distinct names, written again, change nothing. -/
theorem writeVars_idem {ws : List (Nat × Value)} (hnd : (ws.map Prod.fst).Nodup) :
    (s.writeVars ws).writeVars ws = s.writeVars ws := by
  induction ws generalizing s with
  | nil => rfl
  | cons w ws ih =>
    rw [List.map_cons, List.nodup_cons] at hnd
    have hw := varsWf_insertVar hs w.1 w.2
    have hidem : (s.writeVar w.1 w.2).writeVar w.1 w.2 = s.writeVar w.1 w.2 := by
      simp only [State.writeVar, insertVar_idem]
    rw [writeVars_cons, writeVars_cons, writeVars_writeVar_comm hw hnd.1, hidem, ih hw hnd.2]

end Canonical

/-! ## Operations that return no error -/

/-- An operation other than LAYOUT that returns no error writes its results, and writes the same ones at every state with
the same layout and operands. -/
theorem exec_eq_write {i : Instr} {s s' t : State} (hi : ∀ z, i ≠ .layout z) (hL : s.layout = s'.layout)
    (hsrc : AgreeOn i.sources s s') (hexec : exec i s = .next t) (herr : t.errors = s.errors) :
    ∃ ws, ws.map Prod.fst = i.dests ∧ t = s.writeVars ws ∧ exec i s' = .next (s'.writeVars ws) := by
  obtain ⟨c, hfits, hs, hs'⟩ := exec_sameChange hL hsrc
  rw [hexec] at hs
  cases c with
  | write ws => exact ⟨ws, hfits, Host.Outcome.next.inj hs, hs'⟩
  | record e =>
    obtain rfl := Host.Outcome.next.inj hs
    simp at herr
  | setLayout L => exact (hfits.elim hi).elim
  | fault e => cases hs
  | refuse r => cases hs

/-- Two operations in a row that leave the record as it was each do. -/
theorem errors_eq_of_exec_exec {i j : Instr} {s t u : State} (hi : exec i s = .next t) (hj : exec j t = .next u)
    (hu : u.errors = s.errors) : t.errors = s.errors := by
  obtain ht | ⟨e, ht⟩ := (exec_next hi).errors_eq_or
  · exact ht
  · obtain hu' | ⟨e', hu'⟩ := (exec_next hj).errors_eq_or
    · rw [← hu', hu]
    · simp [hu', ht] at hu

theorem dests_nodup {i : Instr} (hi : i.wellFormed = true) : i.dests.Nodup := by
  cases i <;> simp_all [Instr.dests, Instr.wellFormed]

end Sys2Proof.Machine
end

