-- ==== Sys2Proof/Proofs/Roles.lean ====
section
/-! The roles of positions, the predicates that name them, and the number of group bits against the repository's formula
(10_state.md R25, R31, 30_encoding.md R74). -/

namespace Sys2Proof.Machine

/-! ## Roles and predicates -/

theorem isGroup_iff (p : Nat) : isGroup p = true ↔ ∃ j, p = 2 ^ j := isPow2_iff p

theorem isData_iff_not_exists (p : Nat) : isData p = true ↔ 0 < p ∧ ¬ ∃ j, p = 2 ^ j := by
  rw [isData_iff, not_exists]

theorem testBit_iff_shiftRight (p i : Nat) : p.testBit i = true ↔ (p >>> i) % 2 = 1 := by
  rw [Nat.testBit_eq_decide_div_mod_eq, Nat.shiftRight_eq_div_pow, decide_eq_true_eq]

/-! ## The number of group bits -/

/-- A number that meets the condition of R22, and whose predecessors do not, is the number of parity bits. -/
theorem parityBits_eq {d k : Nat} (henough : d + k + 1 ≤ 2 ^ k) (hleast : ∀ j, j < k → 2 ^ j < d + j + 1) :
    parityBits d = k := by
  refine Nat.le_antisymm (Nat.le_of_not_lt fun hlt => ?_) (Nat.le_of_not_lt fun hlt => ?_)
  · exact Nat.not_lt.2 henough (parityBits_least d k hlt)
  · exact Nat.not_lt.2 (parityBits_enough d) (hleast _ hlt)

/-- The bits of `d` and one more where these leave no room for `d` data bits. -/
theorem parityBits_eq_log2 {d : Nat} (hd : d ≠ 0) :
    parityBits d = Nat.log2 d + 1 + if 2 ^ (Nat.log2 d + 1) < d + Nat.log2 d + 2 then 1 else 0 := by
  have hle : 2 ^ Nat.log2 d ≤ d := Nat.log2_self_le hd
  have hlt : d < 2 ^ (Nat.log2 d + 1) := Nat.lt_log2_self
  have hsmall : ∀ j, j < Nat.log2 d + 1 → 2 ^ j < d + j + 1 := fun j hj => by
    have hpow : 2 ^ j ≤ 2 ^ Nat.log2 d := Nat.pow_le_pow_right (by decide) (by omega)
    omega
  split_ifs with hroom
  · refine parityBits_eq ?_ fun j hj => ?_
    · have hlog : Nat.log2 d < 2 ^ Nat.log2 d := Nat.lt_two_pow_self
      rw [pow_succ 2 (Nat.log2 d + 1)]
      omega
    · rcases Nat.lt_succ_iff_lt_or_eq.1 hj with hj | rfl
      · exact hsmall j hj
      · omega
  · rw [Nat.add_zero]
    exact parityBits_eq (by omega) hsmall

/-- The sizes below 9000 whose bits leave no room: `8 * s` is within its own number of bits of the next power of two. -/
theorem no_room_iff {s : Nat} (hs : 1 ≤ s) (hs' : s < 9000) :
    2 ^ (Nat.log2 (8 * s) + 1) < 8 * s + Nat.log2 (8 * s) + 2 ↔
      s ∈ [31, 63, 127, 255, 511, 1023, 2047, 4095, 8190, 8191] := by
  have hle : 2 ^ Nat.log2 (8 * s) ≤ 8 * s := Nat.log2_self_le (by omega)
  have hlt : 8 * s < 2 ^ (Nat.log2 (8 * s) + 1) := Nat.lt_log2_self
  have hlow : 3 ≤ Nat.log2 (8 * s) := (Nat.le_log2 (by omega)).2 (by omega)
  have hhigh : Nat.log2 (8 * s) < 17 := (Nat.log2_lt (by omega)).2 (by omega)
  simp only [List.mem_cons, List.not_mem_nil, or_false]
  generalize Nat.log2 (8 * s) = m at hle hlt hlow hhigh ⊢
  interval_cases m <;> omega

end Sys2Proof.Machine
end

