-- ==== Sys2Proof/Proofs/Corruption.lean ====
section
/-! DECODE of a corrupted frame by the error positions alone (43_decoder.md R192), and the group bits of a frame by the data
bits alone (41_encoder.md R146). -/

namespace Sys2Proof.Machine

open Sys2Proof.Safety

variable {L : Layout}

/-! ## Group bits by data bits -/

/-- A cover is the DATA positions with the bit of its group. -/
theorem cover_eq_filter_dpos (L : Layout) (i : Nat) : L.cover i = L.dpos.filter fun p => p.testBit i := by
  refine List.Pairwise.eq_of_mem_iff (cover_ascending L i) ((dpos_ascending L).filter _) fun p => ?_
  rw [mem_cover, List.mem_filter, mem_dpos, and_assoc]

theorem oddOnes_filter (ps : List Nat) (pred bit : Nat → Bool) :
    oddOnes (ps.filter pred) bit = oddOnes ps fun p => bit p && pred p := by
  rw [oddOnes, oddOnes, List.filter_filter]

/-- A parity over the DATA positions is one over their numbers. -/
theorem oddOnes_dpos (h : L.wf = true) (bit : Nat → Bool) :
    oddOnes L.dpos bit = oddOnes (List.range L.d) fun j => bit (L.dpos.getD j 0) := by
  have hdpos : L.dpos.map bit = (List.range L.d).map fun j => bit (L.dpos.getD j 0) :=
    List.ext_getElem (by simp [wf_dpos_length h]) fun j hj _ => by
      rw [List.length_map] at hj
      simp [hj]
  rw [← bvParity_map, ← bvParity_map, hdpos]

/-! ## Errors and the data -/

section Corrupted

variable (h : L.wf = true) {m c : Bytes} (hc : encodeBlock L m = .ok c) (E : List Nat)
include h hc

theorem OB_le_flipFrame_length : L.OB ≤ (flipFrame c E).length := by
  rw [flipFrame_length, (isFrame_of_encodeBlock h hc).length]

variable (hE : (E.filter (· < L.T)).Nodup)
include hE

/-- The decoding of a corrupted frame has the table's status for the error positions below `T`, and the encoded data bits
but for the DATA positions in error and the position that is corrected. -/
theorem exists_isDecoding_flipFrame :
    ∃ d st, IsDecoding L (flipFrame c E) d st ∧ d.length = L.s ∧
      st = decideStatus L.T (positionsXor (E.filter (· < L.T))) (decide ((E.filter (· < L.T)).length % 2 = 1)) ∧
      ∀ j p, L.dpos[j]? = some p → bufBit d j = xor (xor (bufBit m j) (decide (p ∈ E.filter (· < L.T))))
        (decide (st = .singleErrorCorrected ∧ p = positionsXor (E.filter (· < L.T)))) := by
  have hlen := OB_le_flipFrame_length h hc E
  obtain ⟨d, st, -, hdec⟩ := exists_decodeFrame h hlen
  refine ⟨d, st, hdec, hdec.length, ?_, fun j p hp => ?_⟩
  · rw [hdec.status, receivedStatus, receivedSyndrome_flipFrame h hc E hE, oddOnes_range_flipFrame h hc E hE]
  · have hT := ((mem_dpos L p).1 (List.mem_of_getElem? hp)).1
    have hbits : p < 8 * c.length := by
      rw [← flipFrame_length c E]
      exact hT.trans_le (wf_T_le_frame_bits h hlen)
    rw [hdec.data j p hp, receivedSyndrome_flipFrame h hc E hE, bufBit_flipFrame hbits, encodeBlock_carries_data h hc hp]
    simp [hT]

end Corrupted

/-- DECODE of a corrupted frame that is read: its data and status, by the error positions below `T`. -/
theorem exec_decode_flipFrame {s : State} {x y : Nat} {o : BytesOperand} {m c : Bytes} {E E' : List Nat}
    (h : s.layout.wf = true) (hc : encodeBlock s.layout m = .ok c) (hE' : E.filter (· < s.layout.T) = E')
    (hnd : E'.Nodup) (hread : readBytes o s.layout.OB s = .ok (flipFrame c E)) :
    ∃ d st, exec (.decode x y o) s = .next ((s.writeVar x (.bytes d)).writeVar y (.status st)) ∧
      d.length = s.layout.s ∧
      st = decideStatus s.layout.T (positionsXor E') (decide (E'.length % 2 = 1)) ∧
      ∀ j p, s.layout.dpos[j]? = some p → bufBit d j = xor (xor (bufBit m j) (decide (p ∈ E')))
        (decide (st = .singleErrorCorrected ∧ p = positionsXor E')) := by
  subst hE'
  obtain ⟨d, st, hdec, hrest⟩ := exists_isDecoding_flipFrame h hc E hnd
  exact ⟨d, st, exec_decode_of_isDecoding h hread (OB_le_flipFrame_length h hc E) hdec, hrest⟩

end Sys2Proof.Machine
end

