-- ==== Sys2Proof/Proofs/ModelObligations.lean ====
section
/-! The statements on the encoding, on steps and what they keep, on what operations do and depend on, on roles and
operands, and on DECODE after errors. -/

namespace Sys2Proof.Proofs

open Sys2Proof.Machine Sys2Proof.Safety

/-! ## Encoding and fetching -/

/-- Settles O9: the decoder answers a well-formed instruction for its bytes. -/
theorem decodeOfEncodeIsTheInstruction : Obligations.DecodeOfEncodeIsTheInstruction :=
  fun _ _ hwf => decodeInstr_eq_ok_iff.2 ⟨rfl, hwf⟩

/-- Settles O10: it answers an instruction for no other bytes, and none that is not well formed. -/
theorem encodeOfDecodeIsTheBytes : Obligations.EncodeOfDecodeIsTheBytes :=
  fun _ _ _ h => decodeInstr_eq_ok_iff.1 h

/-- Settles O11: the 13 words, decoded. -/
theorem everyOperationCodeDecodesToItsOperation : Obligations.EveryOperationCodeDecodesToItsOperation := by
  unfold Obligations.EveryOperationCodeDecodesToItsOperation
  decide

/-! ## Steps -/

/-- Settles O51: each of the three effects of an operation leaves a state whose next line is a good state. -/
theorem stepKeepsTheInvariant : Obligations.StepKeepsTheInvariant := by
  intro s t hs hstep
  obtain ⟨i, rest, u, -, hexec, rfl⟩ := step_next hstep
  exact (exec_next hexec).inv_advance hs rest

/-- Settles O50: the layout is `layoutOf 1`, and nothing has been written or recorded. -/
theorem resetIsAGoodState : Obligations.ResetIsAGoodState where
  layout := layoutOf_wf (Nat.le_refl 1)
  vars := varsWf_reset
  rising := ⟨List.Pairwise.nil, fun _ hx => absurd hx List.not_mem_nil⟩
  lengths := fun _ hx => absurd hx List.not_mem_nil

/-- Settles O3: the sizes of `layoutOf 1`, evaluated, and the empty store. -/
theorem resetHasTheDefaultLayoutAndNoVariables : Obligations.ResetHasTheDefaultLayoutAndNoVariables :=
  ⟨by decide, fun _ => rfl⟩

/-- Settles O13: a line that decodes is fetched, and no operation changes the line number. -/
theorem stepRunsTheDecodedInstruction : Obligations.StepRunsTheDecodedInstruction := by
  intro s i rest hdec
  have hfetch := fetch_of_decode hdec
  refine ⟨fun t ht => ?_, fun e he => by simp [step, hfetch, he], fun r hr => by simp [step, hfetch, hr]⟩
  simp [step, hfetch, ht, State.advance, (exec_next ht).line_eq]

/-- Settles O14: the fetch of an empty program is refused. -/
theorem noLineLeftEndsTheProgram : Obligations.NoLineLeftEndsTheProgram := by
  intro s hs
  rw [step, hs, fetch]

/-- Settles O15: every step of the run takes at least the byte of an operation code. -/
theorem programsEndWithinTheirLength : Obligations.ProgramsEndWithinTheirLength :=
  fun _ _ _ hrun => run_length_le hrun

/-- Settles O48: the frame, field by field, of each of the three effects of an operation. -/
theorem operationsWriteOnlyTheirResults : Obligations.OperationsWriteOnlyTheirResults := by
  intro i s t hexec
  have h := exec_next hexec
  exact ⟨fun x hx => h.readVar_eq hx, h.program_eq, h.line_eq, h.errors_eq_or, h.layout_eq,
    fun z hi => h.vars_eq_of_layout hi⟩

/-- Settles O49: an operation other than LAYOUT leaves the layout as it was. -/
theorem onlyLayoutChangesTheLayout : Obligations.OnlyLayoutChangesTheLayout := by
  intro s t hstep hne
  obtain ⟨i, rest, u, hdec, hexec, rfl⟩ := step_next hstep
  by_contra hno
  refine hne ((exec_next hexec).layout_eq fun z hi => hno ⟨z, rest, hi ▸ hdec⟩)

/-! ## Faults and dependence -/

/-- Settles O46: the errors that are raised as faults are those of BV_GET, BV_SET and BV_XOR; SYNDROME compares words of
one length, and ENCODE, DECODE and BV_PAD_TO answer no error but InvalidLength. -/
theorem faultsComeOnlyFromDirectBitVectorCalls : Obligations.FaultsComeOnlyFromDirectBitVectorCalls :=
  fun _ _ _ hL h => exec_fault hL h

/-- Settles O52: both states make one change, and what it does to the results and the record is fixed by it. -/
theorem resultsDependOnlyOnTheOperands : Obligations.ResultsDependOnlyOnTheOperands := by
  intro i s1 s2 hL hsrc
  obtain ⟨c, hfits, h1, h2⟩ := exec_sameChange hL hsrc
  rw [h1, h2]
  cases c with
  | write ws =>
    refine ⟨nofun, nofun, fun t1 ht => ?_⟩
    obtain rfl := Host.Outcome.next.inj ht
    refine ⟨_, rfl, by simpa using hL, .inl ⟨writeVars_errors _ _, writeVars_errors _ _, fun x hx => ?_⟩⟩
    exact readVar_writeVars_mem (hfits ▸ hx) s1 s2
  | record e =>
    refine ⟨nofun, nofun, fun t1 ht => ?_⟩
    obtain rfl := Host.Outcome.next.inj ht
    exact ⟨_, rfl, hL, .inr ⟨e, rfl, rfl⟩⟩
  | setLayout L =>
    refine ⟨nofun, nofun, fun t1 ht => ?_⟩
    obtain rfl := Host.Outcome.next.inj ht
    obtain ⟨z, rfl⟩ := hfits
    exact ⟨_, rfl, rfl, .inl ⟨rfl, rfl, nofun⟩⟩
  | fault e => exact ⟨fun _ h => h, nofun, nofun⟩
  | refuse r => exact ⟨nofun, fun _ h => h, nofun⟩

/-- Settles O53: neither operation changes what the other reads, so each writes the same results in either order, and
results with different names may be written in either order. -/
theorem independentOperationsCommute : Obligations.IndependentOperationsCommute := by
  intro i j s t u hs hi hj hij hji hexec_i hexec_j herr
  have ht := errors_eq_of_exec_exec hexec_i hexec_j herr
  have hL := (exec_next hexec_i).layout_eq hi
  have hread_j : AgreeOn j.sources t s := fun x hx => (exec_next hexec_i).readVar_eq fun hmem => (hij x hmem).2 hx
  obtain ⟨wj, hwj, hu, hexec_j'⟩ := exec_eq_write hj hL hread_j hexec_j (herr.trans ht.symm)
  have hread_i : AgreeOn i.sources s (s.writeVars wj) := fun x hx =>
    (readVar_writeVars_other s wj x fun hmem => hji x (hwj ▸ hmem) hx).symm
  obtain ⟨wi, hwi, hti, hexec_i'⟩ := exec_eq_write hi (writeVars_layout s wj).symm hread_i hexec_i ht
  refine ⟨s.writeVars wj, hexec_j', ?_⟩
  rw [hexec_i', hu, hti, writeVars_comm hs fun x hx hmem => (hij x (hwi ▸ hx)).1 (hwj ▸ hmem)]

/-- Settles O54: LAYOUT reads the same size again; every other operation writes the same results again. -/
theorem operationsAreIdempotent : Obligations.OperationsAreIdempotent := by
  intro i s t hs hwf hdisj hexec herr
  have h := exec_next hexec
  by_cases hlayout : ∃ z, i = .layout z
  · obtain ⟨-, -, -, hno⟩ | ⟨g, r, rfl⟩ | ⟨z, n, rfl, hn, hpos, rfl⟩ := h
    · exact absurd hlayout (not_exists.2 hno)
    · simp at herr
    · have hread : readSize z { s with layout := layoutOf n } = readSize z s := readSize_congr fun x _ => rfl
      exact exec_layout_of_pos (hread.trans hn) hpos
  · have hi := not_exists.1 hlayout
    have hread : AgreeOn i.sources s t := fun x hx => (h.readVar_eq fun hmem => hdisj x hmem hx).symm
    obtain ⟨ws, hws, rfl, hexec'⟩ := exec_eq_write hi (h.layout_eq hi).symm hread hexec herr
    rw [hexec', writeVars_idem hs (hws ▸ dests_nodup hwf)]

/-! ## Roles and predicates -/

/-- Settles O4: above position 0, DATA is what is not GROUP; position 0 is no power of two. -/
theorem everyPositionHasOneRole : Obligations.EveryPositionHasOneRole := by
  intro p
  refine ⟨?_, by simp [isGlobal], isGroup_iff p⟩
  rcases Nat.eq_zero_or_pos p with rfl | hp
  · decide
  · rw [isData_eq_not_isGroup hp, isGlobal, decide_eq_false hp.ne']
    cases isGroup p <;> rfl

/-- Settles O8: `k` is one above the formula exactly where the bits of `8 * s` leave no room. -/
theorem repositoryFormulaDiffersAtTenBlockSizes : Obligations.RepositoryFormulaDiffersAtTenBlockSizes := by
  intro s hs hs'
  have hk : (layoutOf s).k = parityBits (8 * s) := rfl
  simp only [hk, parityBits_eq_log2 (show 8 * s ≠ 0 by omega), no_room_iff hs hs']

/-- Settles O17: the names of roles select by the role, `cover i` by `mem_cover`, and the others by their definition. -/
theorem predicatesSelectTheirPositions : Obligations.PredicatesSelectTheirPositions := by
  intro L p i ps
  simp only [Layout.holds, Bool.and_eq_true, decide_eq_true_eq, Bool.not_eq_true', decide_eq_false_iff_not, isGlobal,
    mem_cover, isData_iff_not_exists, isGroup_iff, testBit_iff_shiftRight, and_assoc, and_self]

/-! ## Operands -/

/-- Settles O33: the lengths are checked after both operands are read, the received word's first. -/
theorem syndromeRefusesOtherLengths : Obligations.SyndromeRefusesOtherLengths := by
  intro s x y or of r f hr hf
  refine ⟨fun hrT => ?_, fun hrT hfT => ?_⟩
  · simp [exec, execSyndrome, hr, hf, codewordLength_of_ne hrT]
  · simp [exec, execSyndrome, hr, hf, codewordLength_of_eq hrT, codewordLength_of_ne hfT]

/-- Settles O16: literals by definition; a variable by its value's kind, or by its having no value. -/
theorem operandsReadTheirForms : Obligations.OperandsReadTheirForms := by
  intro s x w
  refine ⟨fun _ => rfl, rfl, fun _ => rfl, rfl, fun _ => rfl, fun _ => rfl, rfl, rfl, rfl, fun n hn => ?lit, rfl, rfl,
    fun _ => rfl, fun b hb => ?bytes, fun v hv => ?vec, fun n hn => ?nat, fun b hb => ?bit, fun st hst => ?status,
    fun hnone => ?none⟩
  case lit => exact bitOfNat_notABit hn
  case bytes =>
    have hnat : readAs asNat x s = .error (.otherKind x) := readAs_otherKind hb rfl
    exact ⟨readAs_ok hb rfl, readAs_otherKind hb rfl, hnat, readBit_var_of_error hnat, hnat⟩
  case vec =>
    have hnat : readAs asNat x s = .error (.otherKind x) := readAs_otherKind hv rfl
    exact ⟨readAs_ok hv rfl, readAs_otherKind hv rfl, hnat, readBit_var_of_error hnat, hnat⟩
  case nat =>
    have hnat : readAs asNat x s = .ok n := readAs_ok hn rfl
    have hbit : readBit (.var x) s = bitOfNat n := readBit_var_of_nat hnat
    refine ⟨hnat, hnat, fun h0 => ?_, fun h1 => ?_, fun h2 => ?_, readAs_otherKind hn rfl, readAs_otherKind hn rfl⟩
    · rw [hbit, h0, bitOfNat_zero]
    · rw [hbit, h1, bitOfNat_one]
    · rw [hbit, bitOfNat_notABit h2]
  case bit =>
    have hnat : readAs asNat x s = .ok b.toNat := readAs_ok hb rfl
    exact ⟨(readBit_var_of_nat hnat).trans (bitOfNat_toNat b), hnat, hnat, readAs_otherKind hb rfl,
      readAs_otherKind hb rfl⟩
  case status =>
    have hnat : readAs asNat x s = .error (.otherKind x) := readAs_otherKind hst rfl
    exact ⟨readAs_otherKind hst rfl, readAs_otherKind hst rfl, hnat, readBit_var_of_error hnat, hnat⟩
  case none =>
    have hnat : readAs asNat x s = .error (.noValue x) := readAs_noValue hnone
    exact ⟨readAs_noValue hnone, readAs_noValue hnone, hnat, readBit_var_of_error hnat, hnat⟩

/-! ## Frames and errors in them -/

/-- Settles O31: the cover of a group is the DATA positions with its bit, and a DATA position carries its data bit. -/
theorem groupBitsAreParitiesOfDataBits : Obligations.GroupBitsAreParitiesOfDataBits := by
  intro L m c hwf hc i hi
  rw [(isFrame_of_encodeBlock hwf hc).group i hi, cover_eq_filter_dpos, oddOnes_filter,
    oddOnes_dpos hwf]
  refine oddOnes_congr fun j hj => ?_
  have hget : L.dpos[j]? = some (L.dpos.getD j 0) := by
    have hlt : j < L.dpos.length := by rw [wf_dpos_length hwf]; exact List.mem_range.1 hj
    simp [hlt]
  rw [encodeBlock_carries_data hwf hc hget]

/-- Settles O38: without an error below `T` the syndrome is 0, the parity even and every data bit as encoded. -/
theorem decodeReturnsWhatWasEncoded : Obligations.DecodeReturnsWhatWasEncoded := by
  intro s x y o m c E hwf hc hE hread
  have hnone : E.filter (· < s.layout.T) = [] := List.filter_eq_nil_iff.2 fun p hp => by simpa using hE p hp
  obtain ⟨d, st, hexec, hlen, hst, hdata⟩ := exec_decode_flipFrame hwf hc hnone List.nodup_nil hread
  obtain rfl : st = .noError := hst
  obtain rfl : d = m := eq_of_bufBit_dpos hwf hlen (encodeBlock_ok_length hc) fun j p hp => by simp [hdata j p hp]
  exact hexec

/-- Settles O39: the syndrome is the one error position, which is inverted twice. -/
theorem decodeCorrectsEverySingleError : Obligations.DecodeCorrectsEverySingleError := by
  intro s x y o m c E p hwf hc hp hE hread
  have hT : p < s.layout.T := lt_of_mem_filter_lt (hE ▸ List.mem_singleton_self p)
  have hxor : positionsXor [p] = p := Nat.xor_zero p
  obtain ⟨d, st, hexec, hlen, hst, hdata⟩ := exec_decode_flipFrame hwf hc hE (List.nodup_singleton p) hread
  obtain rfl : st = .singleErrorCorrected :=
    hst.trans (decideStatus_eq_singleErrorCorrected_iff.2 ⟨by omega, rfl, by omega⟩)
  obtain rfl : d = m := eq_of_bufBit_dpos hwf hlen (encodeBlock_ok_length hc) fun j q hq => by
    simp [hdata j q hq, hxor]
  exact hexec

/-- Settles O41: two positions are even in number and their exclusive or is not 0, so nothing is corrected. -/
theorem decodeDetectsEveryDoubleError : Obligations.DecodeDetectsEveryDoubleError := by
  intro s x y o m c E p q hwf hc hpq hE hread
  have hxor : positionsXor [p, q] ≠ 0 := by simpa [positionsXor, Nat.xor_eq_zero_iff] using hpq
  obtain ⟨d, st, hexec, hlen, hst, hdata⟩ := exec_decode_flipFrame hwf hc hE (by simpa using hpq) hread
  obtain rfl : st = .doubleErrorDetected :=
    hst.trans (decideStatus_eq_doubleErrorDetected_iff.2 ⟨fun h0 => hxor h0.1, fun h1 => by simp at h1⟩)
  have hbit : ∀ j a, s.layout.dpos[j]? = some a → bufBit d j = xor (bufBit m j) (decide (a = p ∨ a = q)) :=
    fun j a ha => by simp [hdata j a ha]
  refine ⟨d, hexec, hlen, hbit, fun hp hq => ?_⟩
  refine eq_of_bufBit_dpos hwf hlen (encodeBlock_ok_length hc) fun j a ha => ?_
  have hdata_a := ((mem_dpos _ a).1 (List.mem_of_getElem? ha)).2
  have hno : ¬ (a = p ∨ a = q) := by
    rintro (rfl | rfl)
    · simp [hp] at hdata_a
    · simp [hq] at hdata_a
  simp [hbit j a ha, hno]

/-- Settles O42: the status is the table's, row by row. -/
theorem decodeOfThreeOrMoreErrors : Obligations.DecodeOfThreeOrMoreErrors := by
  rintro s x y o m c E E' hwf hc rfl hnd - hread
  obtain ⟨d, st, hexec, -, hst, -⟩ := exec_decode_flipFrame hwf hc rfl hnd hread
  refine ⟨d, st, hexec, fun hodd hn => ?_, fun hodd hn hT => ?_, fun heven hn => ?_, fun heven hn => ?_⟩
  · rw [hst, decideStatus_eq_doubleErrorDetected_iff]
    refine ⟨fun h0 => by simp [hodd] at h0, fun ⟨hne, _, hlt⟩ => ?_⟩
    omega
  · rw [hst, decideStatus_eq_singleErrorCorrected_iff]
    exact ⟨hn, decide_eq_true hodd, hT⟩
  · rw [hst, decideStatus_eq_noError_iff]
    exact ⟨hn, decide_eq_false (by omega)⟩
  · rw [hst, decideStatus_eq_doubleErrorDetected_iff]
    exact ⟨fun h0 => hn h0.1, fun h1 => by simp [heven] at h1⟩

/-! ## The unit of BV_XOR and BV_PARITY -/

/-- Settles O55: the unit's bus is the exclusive or bit by bit, and its parity is taken of the operand's own bits. -/
theorem parityXorUnitGivesXorAndParity : Obligations.ParityXorUnitGivesXorAndParity := by
  intro N a b
  refine ⟨bvXor_ok_iff.2 ⟨by simp, ?_⟩, rfl⟩
  refine List.ext_getElem (by simp) fun i hi _ => ?_
  simp [busBits, parityXorUnit]

end Sys2Proof.Proofs
end
